-- ==== Sys2Proof/Word.lean ====
section
/-! DEFINITION. The engine's word types (00_scope.md R7, 30_encoding.md R45). Every value is unsigned: there is no
signed quantity anywhere in the engine (R7). Addition on `Word` is the spec's `+32` (40_cipher_core.md R69): BitVec
addition, which discards the carry out of bit 31. -/

namespace Sys2Proof

/-- A `u8` (R7). -/
abbrev Byte := BitVec 8

/-- A `u32` (R7): a cipher-state word, `count`, an identity, a length, a bound, a result (00_scope.md R6). -/
abbrev Word := BitVec 32

/-- A command word `CMD[39:0]` (30_encoding.md R45). -/
abbrev CmdWord := BitVec 40

end Sys2Proof
end

