-- ==== Sys2Proof/Config.lean ====
section
/-! DEFINITION. The parameters of the engine, each at the value 00_scope.md R6 gives it for this hardware. The model
needs no opaque free value: what the environment leaves open is data in `State.env` (log entry 1). -/

namespace Sys2Proof.Config

/-- `KEY_BYTES` (R6). -/
abbrev keyBytes : Nat := 32

/-- `NONCE_BYTES` (R6). -/
abbrev nonceBytes : Nat := 8

/-- `SEED_BYTES = KEY_BYTES + NONCE_BYTES` (R6, 41_generator_policy.md R71). -/
abbrev seedBytes : Nat := 40

/-- `BLOCK_BYTES` (R6): keystream bytes per `BLOCK_TRANSFORM`. -/
abbrev blockBytes : Nat := 64

/-- `DOUBLE_ROUNDS` (R6). -/
abbrev doubleRounds : Nat := 10

/-- `BUF_CAP` (R6): bytes in the output buffer. -/
abbrev bufCap : Nat := 1024

/-- `RESEED_BUDGET` (R6, 92_eei_decisions.md D16), as the value `count` is set to. -/
abbrev reseedBudget : Word := 1600000

/-- The one `LOG_CODE` (30_encoding.md R54, 60_exceptions.md R91): `EntropyUnavailable`. -/
abbrev logEntropyUnavailable : Byte := 0x01

/-- The four constant words: the ASCII bytes `expand 32-byte k` read with `le32` (10_state.md R13). -/
abbrev const0 : Word := 0x61707865
@[inherit_doc const0] abbrev const1 : Word := 0x3320646e
@[inherit_doc const0] abbrev const2 : Word := 0x79622d32
@[inherit_doc const0] abbrev const3 : Word := 0x6b206574

end Sys2Proof.Config
end

