-- ==== Sys2Proof/Syntax.lean ====
section
/-! DEFINITION. The instructions: one constructor per row of spec/opcode_table.json (30_encoding.md R46). The
micro-operations have no row and no constructor (R58). -/

namespace Sys2Proof

/-- The three commands a host can start (00_scope.md R2, 30_encoding.md R46, R47). -/
inductive Instr where
  /-- `RANDOM_U32`, OP 0x01; its ARG is ignored, so it has no operand (R47). -/
  | randomU32
  /-- `RANDOM_FILL len`, OP 0x02: `len` bytes on the output port. -/
  | randomFill (len : Word)
  /-- `RANDOM_UNIFORM bound`, OP 0x03: a random integer in `[0, bound)`. -/
  | randomUniform (bound : Word)
  deriving DecidableEq, Repr

end Sys2Proof
end

