-- ==== Sys2Proof/WellFormed.lean ====
section
/-! DEFINITION. Which instructions and which command words are well-formed (30_encoding.md R45 to R48, R58). -/

namespace Sys2Proof

/-- The `(mask, match)` pairs of the three rows of spec/opcode_table.json (R58). -/
def opcodeRows : List (CmdWord × CmdWord) :=
  [(0xFF00000000, 0x0100000000), (0xFF00000000, 0x0200000000), (0xFF00000000, 0x0300000000)]

/-- A command word is legal when some row has `W & mask == match`, and illegal when none has (R48, R58). -/
def CmdWord.wellFormed (w : CmdWord) : Bool := opcodeRows.any fun r => w &&& r.1 == r.2

/-- "All 2^32 values of `ARG` are legal with each of the three legal opcodes" (R48): the operand types carry the whole
check of a command, and what can be ill-formed is a command word. -/
def Instr.wellFormed : Instr → Bool
  | .randomU32 => true
  | .randomFill _ => true
  | .randomUniform _ => true

end Sys2Proof
end

