-- ==== Sys2Proof/Decode.lean ====
section
/-! DEFINITION. The decoder, total on command words and rejecting by name, and the encoder (30_encoding.md R45 to R48,
R57). A decoder reads `OP` and nothing else to know the command (R45). -/

namespace Sys2Proof

/-- The field `OP`, bits 39:32 of a command word (R45). -/
def CmdWord.op (w : CmdWord) : Byte := w.extractLsb' 32 8

/-- The field `ARG`, bits 31:0 of a command word, taken as it stands (R45, R47). -/
def CmdWord.arg (w : CmdWord) : Word := w.extractLsb' 0 32

/-- Why a command word is no command. -/
inductive DecodeError where
  /-- `OP` is 0x00 or 0x04 to 0xFF (R48). Raised by `decode`; the step turns it into the exception `IllegalCommand`
  (60_exceptions.md R93), which the spec defines: safe. -/
  | illegalOpcode (op : Byte)
  deriving DecidableEq, Repr

/-- The command a word stands for (R46, R47). -/
def decode (w : CmdWord) : Except DecodeError Instr :=
  if w.op = 0x01 then .ok .randomU32
  else if w.op = 0x02 then .ok (.randomFill w.arg)
  else if w.op = 0x03 then .ok (.randomUniform w.arg)
  else .error (.illegalOpcode w.op)

/-- `{OP, ARG}` (R45). -/
def assemble (op : Byte) (arg : Word) : CmdWord := op ++ arg

/-- The command word of a command; the canonical word of `RANDOM_U32` has `ARG = 0` (R46, R56). -/
def encode : Instr → CmdWord
  | .randomU32 => assemble 0x01 0
  | .randomFill len => assemble 0x02 len
  | .randomUniform bound => assemble 0x03 bound

/-- The command word whose low `nbits` bits are `w` and whose other bits are zero: a command is one 40-bit word, so the
opcode table's bit numbers are the word's own (R45, R58). -/
def tableWord (nbits w : Nat) : CmdWord := BitVec.ofNat 40 (w % 2 ^ nbits)

/-- What the decoder reads from an instruction whose bits are `w`; none where it refuses. A command is always 40 bits
(R57), so a longer one is none. -/
def decodeTableWord (nbits w : Nat) : Option Instr :=
  if nbits ≤ 40 then
    match decode (tableWord nbits w) with
    | .ok i => some i
    | .error _ => none
  else none

end Sys2Proof
end

