-- ==== Sys2Proof/Machine/State.lean ====
section
/-! DEFINITION. The machine's state as plain data (10_state.md R10 to R21, R27): the spec's six items, the sequencer's
place at a step boundary, and the ports' environment as data. -/

namespace Sys2Proof.Machine

/-- The cipher state `x[0..15]` (10_state.md R11). -/
abbrev CipherState := Vector Word 16

/-- The output buffer `BUF` (10_state.md R16): its non-zero bytes by address, addresses strictly rising. An unlisted
address reads as 0, the reset content (R27). -/
abbrev Memory := List Host.Cell

/-- The lifecycle register (10_state.md R20); code 3 is never taken. -/
inductive Mode where
  | uninit
  | seeded
  | halted
  deriving DecidableEq, Repr

/-- `RSP_STATUS` (30_encoding.md R50); code 3 is never produced. -/
inductive Status where
  | ok
  | errEntropy
  | errIllegal
  deriving DecidableEq, Repr

/-- One response record (30_encoding.md R50). -/
structure Response where
  status : Status
  data : Word
  deriving DecidableEq, Repr

/-- One transfer on the output port: `OUT_BYTE` and `OUT_LAST` (30_encoding.md R51). -/
structure OutTransfer where
  byte : Byte
  last : Bool
  deriving DecidableEq, Repr

/-- One answer on the entropy port: `ENT_FAIL` and `ENT_DATA[319:0]`; the data are ignored when `fail` is set
(30_encoding.md R52). -/
structure EntAnswer where
  fail : Bool
  data : BitVec 320
  deriving DecidableEq, Repr

/-- Where the sequencer stands at a step boundary. Form: DESIGN CHOICE, log entry 3. -/
inductive Sequencer where
  /-- No command in progress: `CMD_READY = 1` (30_encoding.md R55). -/
  | idle
  /-- Inside `cmd`, with `ENT_REQ` raised and not answered (60_exceptions.md R96); `live` is the live pid sample of the
  `STIR_IF_NEEDED` in progress (10_state.md R21). -/
  | waiting (cmd : Instr) (live : Word)
  /-- The command has run; these output bytes and then this response record are not yet taken (30_encoding.md R50, R51,
  R55). -/
  | responding (out : List Byte) (rsp : Response)
  deriving DecidableEq, Repr

/-- The environment at the ports, as data (00_scope.md R8, R9; 92_eei_decisions.md D32). The model's own: log entries
1, 2, 4, 5, 6 and 10. -/
structure Env where
  /-- The `RESET` input (70_reset_and_hazards.md R110). -/
  resetPin : Bool
  /-- The command words the host presents, next first (R9; 30_encoding.md R55). -/
  commands : List CmdWord
  /-- The level on `LIVE_PID` (30_encoding.md R53). -/
  livePid : Word
  /-- The levels the next samples of `LIVE_PID` find, next first; when none is listed a sample finds `livePid`. -/
  pidSamples : List Word
  /-- The answers on the entropy port that the engine has not taken, oldest first: those to withdrawn requests, then those
  to the next requests; a request with none listed stays unanswered. -/
  entropy : List EntAnswer
  /-- How many requests RESET has withdrawn whose answers are still ahead in `entropy`, or still to come
  (70_reset_and_hazards.md R111). -/
  withdrawn : Nat
  /-- How many more output bytes and response records the host takes before it stalls for good; none: it never stalls
  (log entry 10). -/
  takes : Option Nat
  /-- How often `LIVE_PID` has been sampled. -/
  sampled : Nat
  /-- How often `ENT_REQ` has been raised: the gathers a test double counts (R52). -/
  requests : Nat
  /-- The `LOG_CODE` of every `LOG_ERR` pulse, oldest first (30_encoding.md R54). -/
  logged : List Byte
  /-- The output transfers the host has taken, oldest first (R51). -/
  received : List OutTransfer
  /-- The response records the host has taken, oldest first (R50). -/
  responses : List Response
  deriving DecidableEq, Repr

/-- The whole state: the six items of 10_state.md R10, then `seq` and `env`. -/
structure State where
  /-- `x[0..15]` (R11 to R15). -/
  x : CipherState
  /-- `BUF[0..1023]` (R16). -/
  buf : Memory
  /-- `have`: unread bytes at the tail of `BUF` (R17). -/
  haveReg : BitVec 11
  /-- `count`: remaining byte budget before a forced reseed (R18). -/
  count : Word
  /-- `creator_pid`: identity recorded at the last (re)seed (R19). -/
  creatorPid : Word
  /-- `mode` (R20). -/
  mode : Mode
  /-- Transient storage that outlives a step (R21; log entry 3). -/
  seq : Sequencer
  /-- The ports' environment (log entries 1, 2, 4, 5, 6 and 10). -/
  env : Env
  deriving DecidableEq, Repr

/-- How the model itself stops. The engine has no such stop: no state the invariant of Safety.lean admits meets one. -/
inductive Fault where
  /-- Raised by `consume` when it would reach outside `BUF[0..1023]` (20_memory.md R31 says no rule ever does). Only
  states with `have > 1024` meet it, which no run reaches. Safe: it stops where the spec has no address (log entry 11). -/
  | bufferRange
  /-- Raised by the two command loops when their step bound is used up. No state meets it: the bounds are large enough
  from every state. Safe (log entries 7 and 11). -/
  | loopBound
  deriving DecidableEq, Repr

/-- Instructions without a meaning. -/
inductive Refusal where
  /-- Raised by an arm of `exec` for an instruction with no meaning yet. No arm raises it: all three have one. Safe. -/
  | notModelled (mnemonic : String)
  deriving DecidableEq, Repr

/-- The environment beside the machine right after reset: nothing presented, queued, sampled or taken yet
(DESIGN CHOICE, log entry 6). -/
def Env.initial : Env :=
  { resetPin := false, commands := [], livePid := 0, pidSamples := [], entropy := [], withdrawn := 0, takes := none,
    sampled := 0, requests := 0, logged := [], received := [], responses := [] }

/-- The machine right after reset (10_state.md R27, 70_reset_and_hazards.md R110). -/
def State.reset : State :=
  { x := #v[0, 0, 0, 0, 0, 0, 0, 0, 0, 0, 0, 0, 0, 0, 0, 0], buf := [], haveReg := 0, count := 0, creatorPid := 0,
    mode := .uninit, seq := .idle, env := Env.initial }

end Sys2Proof.Machine
end

