-- ==== Sys2Proof/Machine/Flags.lean ====
section
/-! DEFINITION. The engine has no flags, condition codes or predicates (10_state.md R23). What it shows beside its
responses are the status outputs, computed here from the state (10_state.md R24, 30_encoding.md R50, R59). -/

namespace Sys2Proof.Machine

/-- `MODE[1:0]`: the 2-bit code of the lifecycle register (10_state.md R20, R24). -/
def Mode.code : Mode → BitVec 2
  | .uninit => 0
  | .seeded => 1
  | .halted => 2

/-- `RSP_STATUS`: the 2-bit code of a status (30_encoding.md R50, 60_exceptions.md R91). -/
def Status.code : Status → BitVec 2
  | .ok => 0
  | .errEntropy => 1
  | .errIllegal => 2

/-- The engine's output ports at a step boundary (30_encoding.md R59). `LOG_ERR` is a pulse inside a command and 0 at
every boundary (R54, 10_state.md R27); the pulses are in `env.logged`. -/
structure Outputs where
  cmdReady : Bool
  rspValid : Bool
  rspStatus : BitVec 2
  rspData : Word
  outValid : Bool
  outByte : Byte
  outLast : Bool
  entReq : Bool
  logErr : Bool
  modeOut : BitVec 2
  fatal : Bool
  deriving DecidableEq, Repr

/-- What the ports carry (30_encoding.md R50 to R55, R59; 10_state.md R24). The response record follows the last output
byte, so `RSP_VALID` waits for the byte stream to end (R50, R51). Data ports whose valid output is 0 carry nothing a
rule speaks of; the model shows 0 there (DESIGN CHOICE, log entry 8). -/
def State.outputs (s : State) : Outputs :=
  let quiet : Outputs :=
    { cmdReady := false, rspValid := false, rspStatus := 0, rspData := 0, outValid := false, outByte := 0,
      outLast := false, entReq := false, logErr := false, modeOut := s.mode.code, fatal := s.mode == .halted }
  match s.seq with
  | .idle => { quiet with cmdReady := true }
  | .waiting _ _ => { quiet with entReq := true }
  | .responding [] rsp => { quiet with rspValid := true, rspStatus := rsp.status.code, rspData := rsp.data }
  | .responding (b :: bs) _ => { quiet with outValid := true, outByte := b, outLast := bs.isEmpty }

end Sys2Proof.Machine
end

