-- ==== Sys2Proof/Machine/Operands.lean ====
section
/-! DEFINITION. Operands: byte order (20_memory.md R32, R33), the seed on the entropy port (30_encoding.md R52), the one
addressing mode (42_public_api.md R80) and the rejection threshold (R85). -/

namespace Sys2Proof.Machine

/-- `le32`: four bytes to a word, first byte least significant (20_memory.md R33). -/
def le32 (b0 b1 b2 b3 : Byte) : Word := b3 ++ b2 ++ b1 ++ b0

/-- `bytes_le32(v) = [v[7:0], v[15:8], v[23:16], v[31:24]]` (20_memory.md R33). -/
def bytesLe32 (v : Word) : List Byte :=
  [v.extractLsb' 0 8, v.extractLsb' 8 8, v.extractLsb' 16 8, v.extractLsb' 24 8]

/-- The word `le32(bs[i], bs[i+1], bs[i+2], bs[i+3])` of a byte list (20_memory.md R32). Every list it is used on is long
enough. -/
def leWordAt (bs : List Byte) (i : Nat) : Word :=
  le32 (bs.getD i 0) (bs.getD (i + 1) 0) (bs.getD (i + 2) 0) (bs.getD (i + 3) 0)

/-- `zeros(n)` (00_scope.md R7). -/
def zeros (n : Nat) : List Byte := List.replicate n 0

/-- Bytewise exclusive-or, the mixing of `extra` in `REKEY` (41_generator_policy.md R72 step 2). -/
def xorBytes (a b : List Byte) : List Byte := List.zipWith (· ^^^ ·) a b

/-- The 40 seed bytes on the entropy port: seed byte `i` is `ENT_DATA[8i+7:8i]` (30_encoding.md R52). -/
def EntAnswer.seed (a : EntAnswer) : List Byte :=
  (List.range Config.seedBytes).map fun i => a.data.extractLsb' (8 * i) 8

/-- The effective address of `CONSUME`: `1024 - have` (42_public_api.md R80), computed in the register's 11 bits, so that
a `have` above 1024 gives an address outside `BUF`. -/
def consumeAddress (haveReg : BitVec 11) : Nat := (1024 - haveReg).toNat

/-- `min = ((2^32 - bound) mod 2^32) mod bound` (42_public_api.md R84, R85). -/
def threshold (bound : Word) : Word := (-bound) % bound

end Sys2Proof.Machine
end

