-- ==== Sys2Proof/Machine/Ops.lean ====
section
/-! DEFINITION. The named operations over memory, the environment's ports and the response, and taking an exception
(00_scope.md R7, R8; 30_encoding.md R50 to R54; 60_exceptions.md R91 to R93). There is no return from an exception
(60_exceptions.md R99). -/

namespace Sys2Proof.Machine

/-- What an unlisted address of `BUF` reads as: the reset content (10_state.md R27). -/
abbrev Memory.unlisted : Byte := 0

/-- The canonical form: addresses strictly rising, inside `BUF[0..1023]` (20_memory.md R30), and no entry equal to what an
unlisted address reads as. -/
abbrev Memory.wf (m : Memory) : Prop :=
  m.Pairwise (fun c d => c.1 < d.1) ∧ ∀ c ∈ m, c.1 < Config.bufCap ∧ c.2 ≠ Memory.unlisted

/-- `BUF[a]`. -/
def Memory.readByte (m : Memory) (a : Nat) : Byte :=
  match m.find? (fun c => c.1 == a) with
  | some c => c.2
  | none => Memory.unlisted

/-- `MemRead(a, n)`: `[BUF[a], ..., BUF[a+n-1]]` (00_scope.md R7). -/
def Memory.readBytes (m : Memory) (a n : Nat) : List Byte := (List.range' a n).map m.readByte

/-- The canonical cells of the bytes `bs` at addresses `a` upward. -/
def cellsFrom : Nat → List Byte → Memory
  | _, [] => []
  | a, b :: bs => if b = Memory.unlisted then cellsFrom (a + 1) bs else (a, b) :: cellsFrom (a + 1) bs

/-- `MemWrite(a, n, v)` with `n = len(v)` (00_scope.md R7). -/
def Memory.writeBytes (m : Memory) (a : Nat) (bs : List Byte) : Memory :=
  m.filter (fun c => c.1 < a) ++ cellsFrom a bs ++ m.filter (fun c => a + bs.length ≤ c.1)

/-- `LivePid()`: one sample of `LIVE_PID` (00_scope.md R8, 30_encoding.md R53). -/
def State.sampleLivePid (s : State) : Word × State :=
  match s.env.pidSamples with
  | [] => (s.env.livePid, { s with env := { s.env with sampled := s.env.sampled + 1 } })
  | p :: ps =>
    (p, { s with env := { s.env with livePid := p, pidSamples := ps, sampled := s.env.sampled + 1 } })

/-- Raising `ENT_REQ` for one `Gather()` (30_encoding.md R52). -/
def State.raiseEntReq (s : State) : State :=
  { s with env := { s.env with requests := s.env.requests + 1 } }

/-- The answers that are not to a withdrawn request, next first: a late answer to a withdrawn request is ignored
(70_reset_and_hazards.md R111). The environment answers each request once, in order (30_encoding.md R52; log entry 5). -/
def Env.answers (e : Env) : List EntAnswer := e.entropy.drop e.withdrawn

/-- Taking the first of `s.env.answers`, with `rest` after it: it leaves the port, and the ignored ones before it with it. -/
def State.takeAnswer (rest : List EntAnswer) (s : State) : State :=
  { s with env := { s.env with entropy := rest, withdrawn := 0 } }

/-- `LogError(code)`: one `LOG_ERR` pulse with `LOG_CODE = code` (30_encoding.md R54). -/
def State.logError (code : Byte) (s : State) : State :=
  { s with env := { s.env with logged := s.env.logged ++ [code] } }

/-- `respond(status, data)` after the output bytes `out` (30_encoding.md R50, R51): the record and the bytes stand on the
ports until the host takes them. -/
def State.respond (status : Status) (data : Word) (out : List Byte) (s : State) : State :=
  { s with seq := .responding out { status := status, data := data } }

/-- The engine's two exceptions (60_exceptions.md R90). -/
inductive EngineException where
  | entropyUnavailable
  | illegalCommand
  deriving DecidableEq, Repr

/-- Taking an exception (60_exceptions.md R91, R92, R93): `EntropyUnavailable` logs once, halts the engine and answers
`ERR_ENTROPY`; `IllegalCommand` answers `ERR_ILLEGAL` and writes nothing. Both answer with data 0 and no output byte. -/
def State.takeException (e : EngineException) (s : State) : State :=
  match e with
  | .entropyUnavailable =>
    State.respond .errEntropy 0 [] { s.logError Config.logEntropyUnavailable with mode := .halted }
  | .illegalCommand => s.respond .errIllegal 0 []

/-- The answer of a halted engine to every command word (60_exceptions.md R94). -/
def State.answerHalted (s : State) : State := s.respond .errEntropy 0 []

/-- How a micro-operation ends. -/
inductive Micro (α : Type) where
  /-- It completed with a result. -/
  | done (a : α) (s : State)
  /-- Its `Gather()` is not answered yet (60_exceptions.md R96); `live` is the identity sampled before it. -/
  | blocked (live : Word) (s : State)
  /-- `EntropyUnavailable` was raised and its entry has been taken (60_exceptions.md R92). -/
  | raised (s : State)
  /-- The model stops. -/
  | stopped (f : Fault)
  deriving Repr

/-- Run a second micro-operation after a first, "to completion before the next line" (00_scope.md R7). -/
def Micro.andThen {α β : Type} (r : Micro α) (k : α → State → Micro β) : Micro β :=
  match r with
  | .done a s => k a s
  | .blocked live s => .blocked live s
  | .raised s => .raised s
  | .stopped f => .stopped f

end Sys2Proof.Machine
end

