-- ==== Sys2Proof/Machine/Cipher.lean ====
section
/-! DEFINITION. The stream cipher core: the micro-operations of 40_cipher_core.md on the 16 words of the cipher state. -/

namespace Sys2Proof.Machine

/-- `ROTL32(v, n)` (40_cipher_core.md R60). -/
def rotl32 (v : Word) (n : Nat) : Word := (v <<< n) ||| (v >>> (32 - n))

/-- The quarter round on the values of its four words, twelve assignments in R61's order. -/
def quarterWords (a b c d : Word) : Word × Word × Word × Word :=
  let a := a + b
  let d := rotl32 (d ^^^ a) 16
  let c := c + d
  let b := rotl32 (b ^^^ c) 12
  let a := a + b
  let d := rotl32 (d ^^^ a) 8
  let c := c + d
  let b := rotl32 (b ^^^ c) 7
  (a, b, c, d)

/-- `QUARTERROUND(a, b, c, d)` on four distinct words of the working array (40_cipher_core.md R61). -/
def quarterRound (a b c d : Fin 16) (w : CipherState) : CipherState :=
  let q := quarterWords w[a] w[b] w[c] w[d]
  (((w.set a q.1).set b q.2.1).set c q.2.2.1).set d q.2.2.2

/-- The column round (40_cipher_core.md R65). -/
def columnRound (w : CipherState) : CipherState :=
  quarterRound 3 7 11 15 (quarterRound 2 6 10 14 (quarterRound 1 5 9 13 (quarterRound 0 4 8 12 w)))

/-- The diagonal round (40_cipher_core.md R65). -/
def diagonalRound (w : CipherState) : CipherState :=
  quarterRound 3 4 9 14 (quarterRound 2 7 8 13 (quarterRound 1 6 11 12 (quarterRound 0 5 10 15 w)))

/-- `DOUBLEROUND()`: the column round, then the diagonal round (40_cipher_core.md R65). -/
def doubleRound (w : CipherState) : CipherState := diagonalRound (columnRound w)

/-- `n` double rounds. -/
def rounds : Nat → CipherState → CipherState
  | 0, w => w
  | n + 1, w => rounds n (doubleRound w)

/-- The final words of a block: the working array with the original words added back (40_cipher_core.md R64). -/
def blockWords (x : CipherState) : List Word :=
  List.zipWith (· + ·) (rounds Config.doubleRounds x).toList x.toList

/-- The 64 keystream bytes of a block: word 0 first, least significant byte of each word first (40_cipher_core.md R64,
R66). Irreducible to the elaborator only, so that a proof about whole blocks never unrolls twenty rounds by accident. -/
@[irreducible] def blockBytes (x : CipherState) : List Byte := (blockWords x).flatMap bytesLe32

/-- `COUNTER_INCREMENT()` (40_cipher_core.md R67). -/
def counterIncrement (x : CipherState) : CipherState :=
  let x := x.set 12 (x[12] + 1)
  if x[12] = 0 then x.set 13 (x[13] + 1) else x

/-- `BLOCK_TRANSFORM()`: the block of the counter's value at entry, then the increment (40_cipher_core.md R64). -/
def blockTransform (x : CipherState) : List Byte × CipherState := (blockBytes x, counterIncrement x)

/-- `n` consecutive whole blocks (40_cipher_core.md R68). -/
def generateBlocks : Nat → CipherState → List Byte × CipherState
  | 0, x => ([], x)
  | n + 1, x =>
    let b := blockTransform x
    let r := generateBlocks n b.2
    (b.1 ++ r.1, r.2)

/-- `GENERATE(length)`: whole blocks, then a final partial block from a scratch block that is truncated
(40_cipher_core.md R68). -/
def generate (length : Nat) (x : CipherState) : List Byte × CipherState :=
  let whole := generateBlocks (length / Config.blockBytes) x
  if length % Config.blockBytes = 0 then whole
  else
    let scratch := blockTransform whole.2
    (whole.1 ++ scratch.1.take (length % Config.blockBytes), scratch.2)

/-- `KEY_SETUP(key)`: constants and 8 key words; words 12 to 15 stay (40_cipher_core.md R62). -/
def keySetup (key : List Byte) (x : CipherState) : CipherState :=
  #v[Config.const0, Config.const1, Config.const2, Config.const3,
    leWordAt key 0, leWordAt key 4, leWordAt key 8, leWordAt key 12,
    leWordAt key 16, leWordAt key 20, leWordAt key 24, leWordAt key 28,
    x[12], x[13], x[14], x[15]]

/-- `NONCE_SETUP(nonce)`: counter 0 and 2 nonce words; words 0 to 11 stay (40_cipher_core.md R63). -/
def nonceSetup (nonce : List Byte) (x : CipherState) : CipherState :=
  (((x.set 12 0).set 13 0).set 14 (leWordAt nonce 0)).set 15 (leWordAt nonce 4)

/-- `INIT(seed)`: key from bytes 0 to 31, nonce from bytes 32 to 39 (41_generator_policy.md R70, R71). -/
def initCipher (seed : List Byte) (x : CipherState) : CipherState :=
  nonceSetup ((seed.drop Config.keyBytes).take Config.nonceBytes) (keySetup (seed.take Config.keyBytes) x)

end Sys2Proof.Machine
end

