-- ==== Sys2Proof/Machine/Generator.lean ====
section
/-! DEFINITION. The generator state machine: `REKEY`, `STIR_IF_NEEDED` with its two paths, and `CONSUME`
(41_generator_policy.md, 42_public_api.md R80). -/

namespace Sys2Proof.Machine

/-- Steps 1 and 2 of `REKEY`: the whole buffer becomes keystream, overwriting what was there (90_conflicts.md C2), and
`extra`, where given, is mixed into its first 40 bytes (41_generator_policy.md R72). -/
def rekeyBuffer (extra : Option (List Byte)) (ks : List Byte) (buf : Memory) : Memory :=
  let full := buf.writeBytes 0 ks
  match extra with
  | none => full
  | some e => full.writeBytes 0 (xorBytes (full.readBytes 0 Config.seedBytes) e)

/-- `REKEY(extra)` (41_generator_policy.md R72). -/
def rekey (extra : Option (List Byte)) (s : State) : State :=
  let ks := generate Config.bufCap s.x
  let buf := rekeyBuffer extra ks.1 s.buf
  { s with
    x := initCipher (buf.readBytes 0 Config.seedBytes) ks.2
    buf := buf.writeBytes 0 (zeros Config.seedBytes)
    haveReg := 984 }

/-- The trigger test of `STIR_IF_NEEDED(n)` (41_generator_policy.md R74). -/
def reseedTriggered (n live : Word) (s : State) : Bool :=
  s.mode == .uninit || s.count ≤ n || s.creatorPid != live

/-- `RESEED(live)` once its 40 bytes have come (41_generator_policy.md R75): `INIT` in mode UNINIT, `REKEY(seed)` in mode
SEEDED, then the control registers, `have <- 0` last of the two writes of `have` (90_conflicts.md C4). -/
def reseedFrom (live : Word) (seed : List Byte) (s : State) : State :=
  let keyed := if s.mode = .uninit then { s with x := initCipher seed s.x } else rekey (some seed) s
  { keyed with count := Config.reseedBudget, haveReg := 0, creatorPid := live, mode := .seeded }

/-- `RESEED(live)` from its `Gather()` on, with `ENT_REQ` raised (41_generator_policy.md R75, R78): no answer to it
yet, the command blocks (60_exceptions.md R96); a failure raises `EntropyUnavailable` with nothing written (R92); 40 bytes key
the engine. -/
def awaitEntropy (live : Word) (s : State) : Micro Unit :=
  match s.env.answers with
  | [] => .blocked live s
  | a :: rest =>
    let s := s.takeAnswer rest
    if a.fail then .raised (s.takeException .entropyUnavailable)
    else .done () (reseedFrom live a.seed s)

/-- `STIR_IF_NEEDED(n)` (41_generator_policy.md R74, R76): one sample of the identity, the trigger test, then `RESEED` or
the charge to `count`. -/
def stirIfNeeded (n : Word) (s : State) : Micro Unit :=
  let p := s.sampleLivePid
  if reseedTriggered n p.1 p.2 then awaitEntropy p.1 p.2.raiseEntReq
  else .done () { p.2 with count := p.2.count - n }

/-- `CONSUME(m)`: hand out the next `m` unread bytes and zero them in the buffer (42_public_api.md R80). Its callers give
`1 <= m <= have`; an access outside `BUF` faults (20_memory.md R31). -/
def consume (m : Nat) (s : State) : Micro (List Byte) :=
  let a := consumeAddress s.haveReg
  if a + m ≤ Config.bufCap then
    .done (s.buf.readBytes a m)
      { s with buf := s.buf.writeBytes a (zeros m), haveReg := s.haveReg - BitVec.ofNat 11 m }
  else .stopped .bufferRange

end Sys2Proof.Machine
end

