-- ==== Sys2Proof/Machine/Commands.lean ====
section
/-! DEFINITION. The three commands (42_public_api.md R81, R82, R84) over the micro-operations, and the resumption of a
command whose `Gather()` was blocked (60_exceptions.md R96). -/

namespace Sys2Proof.Machine

/-- What a command answers with status OK: `RSP_DATA` and the output bytes (30_encoding.md R50, R51). -/
structure Reply where
  data : Word
  out : List Byte
  deriving DecidableEq, Repr

/-- The end of a command's run: its response, or the sequencer waiting for the entropy answer (30_encoding.md R50, R52). -/
def finish (cmd : Instr) (r : Micro Reply) : Host.Outcome State Fault Refusal :=
  match r with
  | .done a s => .next (s.respond .ok a.data a.out)
  | .blocked live s => .next { s with seq := .waiting cmd live }
  | .raised s => .next s
  | .stopped f => .fault f

/-- A halted engine answers without running the command (30_encoding.md R49, 60_exceptions.md R94). -/
def runUnlessHalted (cmd : Instr) (s : State) (r : Micro Reply) : Host.Outcome State Fault Refusal :=
  if s.mode = .halted then .next s.answerHalted else finish cmd r

/-- `NEXT_U32` after its `STIR_IF_NEEDED(4)` (42_public_api.md R81). -/
def drawWord (s : State) : Micro Word :=
  let s := if s.haveReg < 4 then rekey none s else s
  (consume 4 s).andThen fun b s => .done (leWordAt b 0) s

/-- `NEXT_U32()` (42_public_api.md R81). -/
def nextU32 (s : State) : Micro Word := (stirIfNeeded 4 s).andThen fun _ s => drawWord s

/-- `RANDOM_U32` from the end of its `STIR_IF_NEEDED` on. -/
def u32Tail (s : State) : Micro Reply := (drawWord s).andThen fun v s => .done ⟨v, []⟩ s

/-- The loop of `RANDOM_FILL` with `remaining = len - len(out)` bytes to go (42_public_api.md R82). The first argument
bounds the iterations: `remaining + 2` suffice, since each but the first and the last consumes at least one byte. -/
def fillLoop : Nat → Nat → State → Micro (List Byte)
  | 0, _, _ => .stopped .loopBound
  | fuel + 1, remaining, s =>
    if remaining = 0 then .done [] s
    else
      let m := min remaining s.haveReg.toNat
      (if 0 < s.haveReg then consume m s else .done [] s).andThen fun got s =>
        let s := if s.haveReg = 0 ∧ 0 < remaining - got.length then rekey none s else s
        (fillLoop fuel (remaining - got.length) s).andThen fun rest s => .done (got ++ rest) s

/-- `RANDOM_FILL` from the end of its `STIR_IF_NEEDED` on (42_public_api.md R82). -/
def fillTail (len : Word) (s : State) : Micro Reply :=
  (fillLoop (len.toNat + 2) len.toNat s).andThen fun out s => .done ⟨0, out⟩ s

/-- A number of draws after which `RANDOM_UNIFORM` has answered, halted or blocked: a draw without a trigger lowers
`count` by 4, and a draw with one uses up an answer on the entropy port (log entry 7). Irreducible to the elaborator only:
it is a large number. -/
@[irreducible] def drawBound (s : State) : Nat :=
  (Config.reseedBudget.toNat / 4 + 1) * s.env.answers.length + s.count.toNat / 4 + 1

/-- What `RANDOM_UNIFORM` does with a draw: accept it and reduce it, or go on (42_public_api.md R84). -/
def judge (bound : Word) (again : State → Micro Reply) (candidate : Word) (s : State) : Micro Reply :=
  if threshold bound ≤ candidate then .done ⟨candidate % bound, []⟩ s else again s

/-- The loop of `RANDOM_UNIFORM` (42_public_api.md R84), with a bound on the draws. -/
def uniformLoop : Nat → Word → State → Micro Reply
  | 0, _, _ => .stopped .loopBound
  | fuel + 1, bound, s => (nextU32 s).andThen (judge bound (uniformLoop fuel bound))

/-- `RANDOM_UNIFORM` from the end of a draw's `STIR_IF_NEEDED` on (42_public_api.md R84). -/
def uniformTail (bound : Word) (s : State) : Micro Reply :=
  (drawWord s).andThen (judge bound fun s => uniformLoop (drawBound s) bound s)

/-- `RANDOM_U32` (42_public_api.md R81). -/
def execRandomU32 (s : State) : Host.Outcome State Fault Refusal :=
  runUnlessHalted .randomU32 s ((stirIfNeeded 4 s).andThen fun _ s => u32Tail s)

/-- `RANDOM_FILL len` (42_public_api.md R82). -/
def execRandomFill (len : Word) (s : State) : Host.Outcome State Fault Refusal :=
  runUnlessHalted (.randomFill len) s ((stirIfNeeded len s).andThen fun _ s => fillTail len s)

/-- `RANDOM_UNIFORM bound` (42_public_api.md R84): 0 with no oracle call and no state change when `bound < 2`. -/
def execRandomUniform (bound : Word) (s : State) : Host.Outcome State Fault Refusal :=
  runUnlessHalted (.randomUniform bound) s
    (if bound < 2 then .done ⟨0, []⟩ s else uniformLoop (drawBound s) bound s)

/-- What is left of a command after the `STIR_IF_NEEDED` it was blocked in. -/
def tailOf (cmd : Instr) (s : State) : Micro Reply :=
  match cmd with
  | .randomU32 => u32Tail s
  | .randomFill len => fillTail len s
  | .randomUniform bound => uniformTail bound s

/-- A blocked command at its next chance: still blocked while no answer has come, else it goes on where it stood
(30_encoding.md R52, 60_exceptions.md R96). -/
def resume (cmd : Instr) (live : Word) (s : State) : Host.Outcome State Fault Refusal :=
  finish cmd ((awaitEntropy live s).andThen fun _ s => tailOf cmd s)

end Sys2Proof.Machine
end

