-- ==== Sys2Proof/Machine/Dispatch.lean ====
section
/-! DEFINITION. One arm per instruction. -/

namespace Sys2Proof.Machine

def exec (i : Instr) (s : State) : Host.Outcome State Fault Refusal :=
  match i with
  | .randomU32 => Sys2Proof.Machine.execRandomU32 s
  | .randomFill len => Sys2Proof.Machine.execRandomFill len s
  | .randomUniform bound => Sys2Proof.Machine.execRandomUniform bound s

end Sys2Proof.Machine
end

