-- ==== Sys2Proof/Machine/Ports.lean ====
section
/-! DEFINITION. The command, response and output ports and RESET around a command's run (30_encoding.md R49 to R51, R55;
70_reset_and_hazards.md R110, R111). -/

namespace Sys2Proof.Machine

/-- Accepting the presented command word: it leaves the host's list (30_encoding.md R55). -/
def State.accept (rest : List CmdWord) (s : State) : State := { s with env := { s.env with commands := rest } }

/-- Dispatch of an accepted command word (30_encoding.md R49, 60_exceptions.md R95): a halted engine answers
`ERR_ENTROPY` whatever the word is, an illegal word raises `IllegalCommand`, a legal one runs. -/
def dispatch (w : CmdWord) (s : State) : Host.Outcome State Fault Refusal :=
  if s.mode = .halted then .next s.answerHalted
  else
    match decode w with
    | .ok i => exec i s
    | .error _ => .next (s.takeException .illegalCommand)

/-- The transfers of an output byte stream: `OUT_LAST` on the last byte and no other (30_encoding.md R51). -/
def transfers (out : List Byte) : List OutTransfer :=
  out.zipIdx.map fun p => ⟨p.1, p.2 + 1 == out.length⟩

/-- How many of `n` output bytes the host takes. -/
def bytesTaken (takes : Option Nat) (n : Nat) : Nat :=
  match takes with
  | none => n
  | some t => min t n

/-- The host takes what it will of the output bytes, and then, if all bytes are gone and it takes one more transfer, the
response record, after which `CMD_READY` is 1 again (30_encoding.md R50, R51, R55; 92_eei_decisions.md D29). -/
def State.deliver (s : State) : State :=
  match s.seq with
  | .responding out rsp =>
    let k := bytesTaken s.env.takes out.length
    let left := s.env.takes.map (· - k)
    let env := { s.env with received := s.env.received ++ (transfers out).take k, takes := left }
    if k < out.length ∨ left = some 0 then { s with seq := .responding (out.drop k) rsp, env := env }
    else
      { s with
        seq := .idle
        env := { env with responses := env.responses ++ [rsp], takes := left.map (· - 1) } }
  | _ => s

/-- `deliver` on the next state of an outcome. -/
def deliverOutcome (o : Host.Outcome State Fault Refusal) : Host.Outcome State Fault Refusal :=
  match o with
  | .next s => .next s.deliver
  | .fault f => .fault f
  | .refused r => .refused r

/-- How many withdrawn requests are unanswered after a reset: the pending one joins them, so that its answer is ignored,
whether it is there already or comes late (70_reset_and_hazards.md R111). -/
def withdrawnAfterReset (s : State) : Nat :=
  match s.seq with
  | .waiting _ _ => s.env.withdrawn + 1
  | _ => s.env.withdrawn

/-- RESET taking effect in any state (70_reset_and_hazards.md R110, R111): every piece of engine state at its reset value,
the command in progress abandoned, nothing more transferred; what the environment has or will do stays, and the model
releases the pin (log entry 5). -/
def State.applyReset (s : State) : State :=
  { State.reset with env := { s.env with resetPin := false, withdrawn := withdrawnAfterReset s } }

/-- The word on the command port, in the sequence the host presents (00_scope.md R9). -/
def State.presentedWord (s : State) : Option CmdWord := s.env.commands.head?

/-- `s` with the command word `w` presented next, the engine ready to accept it and RESET not asserted. -/
def State.present (w : CmdWord) (s : State) : State :=
  { s with seq := .idle, env := { s.env with resetPin := false, commands := w :: s.env.commands } }

end Sys2Proof.Machine
end

