-- ==== Sys2Proof/Machine/Step.lean ====
section
/-! DEFINITION. One step. RESET comes first; then a stalled response, a blocked command, or the acceptance of the next
command word, each command from word to response in one step (00_scope.md R9, 20_memory.md R38). With no word presented
the engine is idle and its state unchanged (60_exceptions.md R105). -/

namespace Sys2Proof.Machine

/-- One step of the machine. -/
def step (s : State) : Host.Outcome State Fault Refusal :=
  if s.env.resetPin then .next s.applyReset
  else
    match s.seq with
    | .responding _ _ => .next s.deliver
    | .waiting cmd live => deliverOutcome (resume cmd live s)
    | .idle =>
      match s.env.commands with
      | [] => .next s
      | w :: rest => deliverOutcome (dispatch w (s.accept rest))

/-- `s` with the instruction's word on the command port, where the next step takes it: the engine stores no program
(10_state.md R22), so this is the host presenting the word (log entry 4). -/
def State.withFetchWord (s : State) (nbits w : Nat) : State := s.present (tableWord nbits w)

end Sys2Proof.Machine
end

