-- ==== Sys2Proof/Machine/Bench.lean ====
section
/-! DEFINITION. What the outside world can do to the machine between steps (30_encoding.md R52, R53, R55, R56;
70_reset_and_hazards.md R110), and test-bench programs over it (95_test_vectors.md, conventions). -/

namespace Sys2Proof.Machine

/-- The host puts one more command word at the end of what it presents (30_encoding.md R55). -/
def State.queueCommand (w : CmdWord) (s : State) : State :=
  { s with env := { s.env with commands := s.env.commands ++ [w] } }

/-- `.pid v`: the identity port presents `v` from then on (30_encoding.md R53, R56). -/
def State.setLivePid (v : Word) (s : State) : State :=
  { s with env := { s.env with livePid := v, pidSamples := [] } }

/-- `.entropy ...`: one more answer comes on the entropy port, to the oldest request that has none, withdrawn requests first
(30_encoding.md R52, R56; 70_reset_and_hazards.md R111). -/
def State.queueEntropy (a : EntAnswer) (s : State) : State :=
  { s with env := { s.env with entropy := s.env.entropy ++ [a] } }

/-- The source gives up the withdrawn requests it has not answered: the next answer it sends is to a later request
(70_reset_and_hazards.md R111; log entry 5). -/
def State.forgetWithdrawn (s : State) : State := s.takeAnswer s.env.answers

/-- The host will take `n` more transfers and then stall, or, with none, never stall (30_encoding.md R55,
70_reset_and_hazards.md R122). -/
def State.setTakes (n : Option Nat) (s : State) : State := { s with env := { s.env with takes := n } }

/-- The host asserts RESET (70_reset_and_hazards.md R110). -/
def State.assertReset (s : State) : State := { s with env := { s.env with resetPin := true } }

/-- One line of a test-bench program (30_encoding.md R56). -/
inductive BenchLine where
  /-- A command word presented and run. -/
  | command (w : CmdWord)
  /-- `.pid v`. -/
  | pid (v : Word)
  /-- `.entropy ok <40 bytes>` or `.entropy fail`. -/
  | entropy (a : EntAnswer)
  deriving DecidableEq, Repr

/-- The effect of one line: a directive changes the environment, a command word is presented and one step is taken. -/
def BenchLine.run (l : BenchLine) (s : State) : Host.Outcome State Fault Refusal :=
  match l with
  | .command w => step (s.queueCommand w)
  | .pid v => .next (s.setLivePid v)
  | .entropy a => .next (s.queueEntropy a)

/-- A test-bench program from a state, stopping at a fault or a refusal. -/
def runBench : List BenchLine → State → Host.Outcome State Fault Refusal
  | [], s => .next s
  | l :: ls, s =>
    match l.run s with
    | .next t => runBench ls t
    | .fault f => .fault f
    | .refused r => .refused r

end Sys2Proof.Machine
end

