-- ==== Sys2Proof/Machine/Text.lean ====
section
/-! DEFINITION. The textual syntax (30_encoding.md R56): one command a line, its mnemonic and its argument, `;` starts a
comment, numbers decimal or `0x` hexadecimal, the source's function names as aliases, and the two test-bench directives.
Texts are lists of characters. What separates the words of a line R56 does not say: blanks and tabs (DESIGN CHOICE, log
entry 9). -/

namespace Sys2Proof.Machine.Text

/-- The part of a line before its comment. -/
def dropComment (line : List Char) : List Char := line.takeWhile (· ≠ ';')

/-- A blank or a tab. -/
def isBlank (c : Char) : Bool := c == ' ' || c == '\t'

/-- The words of a line in reverse scan: the word being read and the words after it. -/
def wordsStep (c : Char) (acc : List Char × List (List Char)) : List Char × List (List Char) :=
  if isBlank c then ([], if acc.1 = [] then acc.2 else acc.1 :: acc.2) else (c :: acc.1, acc.2)

/-- The words of a line. -/
def words (line : List Char) : List (List Char) :=
  let acc := line.foldr wordsStep ([], [])
  if acc.1 = [] then acc.2 else acc.1 :: acc.2

/-- The value of a digit. -/
def digitValue (c : Char) : Option Nat :=
  if '0' ≤ c ∧ c ≤ '9' then some (c.toNat - 48)
  else if 'a' ≤ c ∧ c ≤ 'f' then some (c.toNat - 87)
  else if 'A' ≤ c ∧ c ≤ 'F' then some (c.toNat - 55)
  else none

/-- The number written by digits of a base, most significant first, after the value `acc`. -/
def digits (base : Nat) : Nat → List Char → Option Nat
  | acc, [] => some acc
  | acc, c :: cs =>
    match digitValue c with
    | some d => if d < base then digits base (acc * base + d) cs else none
    | none => none

/-- A decimal or `0x` hexadecimal number (00_scope.md R7, 30_encoding.md R56). -/
def number : List Char → Option Nat
  | [] => none
  | '0' :: 'x' :: c :: cs => digits 16 0 (c :: cs)
  | cs => digits 10 0 cs

/-- An argument: any number from 0 to 2^32 - 1 (30_encoding.md R47). -/
def argument (cs : List Char) : Option Word :=
  match number cs with
  | some n => if n < 2 ^ 32 then some (BitVec.ofNat 32 n) else none
  | none => none

/-- The names of `RANDOM_U32` (30_encoding.md R56). -/
def namesU32 : List (List Char) :=
  [['R', 'A', 'N', 'D', 'O', 'M', '_', 'U', '3', '2'], ['n', 'e', 'x', 't', '_', 'u', '3', '2'],
    ['r', 'a', 'n', 'd', 'o', 'm', '_', 'u', '3', '2']]

/-- The names of `RANDOM_FILL` (30_encoding.md R56). -/
def namesFill : List (List Char) :=
  [['R', 'A', 'N', 'D', 'O', 'M', '_', 'F', 'I', 'L', 'L'], ['f', 'i', 'l', 'l'],
    ['r', 'a', 'n', 'd', 'o', 'm', '_', 'f', 'i', 'l', 'l']]

/-- The names of `RANDOM_UNIFORM` (30_encoding.md R56). -/
def namesUniform : List (List Char) :=
  [['R', 'A', 'N', 'D', 'O', 'M', '_', 'U', 'N', 'I', 'F', 'O', 'R', 'M'], ['u', 'n', 'i', 'f', 'o', 'r', 'm'],
    ['r', 'a', 'n', 'd', 'o', 'm', '_', 'u', 'n', 'i', 'f', 'o', 'r', 'm']]

/-- The directive word `.pid` (30_encoding.md R56). -/
def pidWord : List Char := ['.', 'p', 'i', 'd']

/-- The directive word `.entropy` (30_encoding.md R56). -/
def entropyWord : List Char := ['.', 'e', 'n', 't', 'r', 'o', 'p', 'y']

/-- The byte string of hex digits, two a byte, first byte first (00_scope.md R7), as the number whose byte `i` is byte
`i` of the string. -/
def byteString : List Char → Option Nat
  | [] => some 0
  | hi :: lo :: cs =>
    match digits 16 0 [hi, lo], byteString cs with
    | some b, some n => some (b + 256 * n)
    | _, _ => none
  | [_] => none

/-- The entropy answer `ok <40 bytes>` with the bytes as one hex string. -/
def okAnswer (cs : List Char) : Option EntAnswer :=
  if cs.length = 2 * Config.seedBytes then
    match byteString cs with
    | some n => some ⟨false, BitVec.ofNat 320 n⟩
    | none => none
  else none

/-- The command or directive that the words of a line stand for. -/
def parseWords (ws : List (List Char)) : Option BenchLine :=
  match ws with
  | [name] => if name ∈ namesU32 then some (.command (encode .randomU32)) else none
  | [name, arg] =>
    if name ∈ namesFill then (argument arg).map fun n => .command (encode (.randomFill n))
    else if name ∈ namesUniform then (argument arg).map fun n => .command (encode (.randomUniform n))
    else if name = pidWord then (argument arg).map .pid
    else if name = entropyWord ∧ arg = ['f', 'a', 'i', 'l'] then some (.entropy ⟨true, 0⟩)
    else none
  | [name, ok, bytes] =>
    if name = entropyWord ∧ ok = ['o', 'k'] then (okAnswer bytes).map .entropy else none
  | _ => none

/-- One line of text (30_encoding.md R56). -/
def parseLine (line : List Char) : Option BenchLine := parseWords (words (dropComment line))

/-- A hexadecimal digit. -/
def hexDigit (n : Nat) : Char :=
  ['0', '1', '2', '3', '4', '5', '6', '7', '8', '9', 'a', 'b', 'c', 'd', 'e', 'f'].getD n '0'

/-- A word as `0x` and eight hexadecimal digits. -/
def printWord (v : Word) : List Char :=
  '0' :: 'x' :: [7, 6, 5, 4, 3, 2, 1, 0].map fun i => hexDigit (v.toNat / 16 ^ i % 16)

/-- A command in text, with its first name (30_encoding.md R56). -/
def printInstr : Instr → List Char
  | .randomU32 => namesU32.headD []
  | .randomFill len => namesFill.headD [] ++ ' ' :: printWord len
  | .randomUniform bound => namesUniform.headD [] ++ ' ' :: printWord bound

/-- A command word in text; a decoder prints any word with OP 0x01 as `RANDOM_U32` (30_encoding.md R56). -/
def disassemble (w : CmdWord) : Option (List Char) :=
  match decode w with
  | .ok i => some (printInstr i)
  | .error _ => none

end Sys2Proof.Machine.Text
end

