-- ==== Sys2Proof/Safety.lean ====
section
/-! DEFINITION. What holds at every command boundary (10_state.md R26), and what counts as a safe run. -/

namespace Sys2Proof.Machine

/-- What the sequencer's place says of the rest of the state: a blocked command is one that draws bytes, in an engine that
is not halted (30_encoding.md R49, 42_public_api.md R84), and a pending response carries no data beside an error
(60_exceptions.md R98) and is `ERR_ENTROPY` exactly in a halted engine (R92, R94, R95). -/
def SequencerInv (s : State) : Prop :=
  match s.seq with
  | .idle => True
  | .waiting cmd _ => s.mode ≠ .halted ∧ ∀ bound, cmd = .randomUniform bound → 2 ≤ bound
  | .responding out rsp =>
    (rsp.status ≠ .ok → out = [] ∧ rsp.data = 0) ∧ (rsp.status = .errEntropy ↔ s.mode = .halted)

/-- The cipher state's constant words (10_state.md R13). -/
def HasConstants (x : CipherState) : Prop :=
  x[0] = Config.const0 ∧ x[1] = Config.const1 ∧ x[2] = Config.const2 ∧ x[3] = Config.const3

/-- The block counter is 0 (10_state.md R15). -/
def CounterZero (x : CipherState) : Prop := x[12] = 0 ∧ x[13] = 0

/-- What 10_state.md R26 says of the engine's own state: its items 1 to 5, with the buffer's canonical form. -/
structure EngineInv (s : State) : Prop where
  constants : s.mode = .seeded → HasConstants s.x
  counter : CounterZero s.x
  haveLe : s.haveReg.toNat ≤ 984
  countRange : s.mode = .seeded → 1 ≤ s.count.toNat ∧ s.count.toNat ≤ 1600000
  frontZero : ∀ a < 40, s.buf.readByte a = 0
  bufWf : s.buf.wf

/-- The invariant of every step boundary. -/
structure Inv (s : State) : Prop where
  engine : EngineInv s
  sequencer : SequencerInv s

/-- A state from which the next step goes on: it neither faults nor refuses. -/
def Advances (s : State) : Prop := ∃ t, step s = .next t

/-- What the next sample of `LIVE_PID` finds (00_scope.md R8, 30_encoding.md R53). -/
def State.nextPid (s : State) : Word := s.env.pidSamples.headD s.env.livePid

/-- The environment after one sample of `LIVE_PID`. -/
def Env.afterSample (e : Env) : Env :=
  { e with livePid := e.pidSamples.headD e.livePid, pidSamples := e.pidSamples.tail, sampled := e.sampled + 1 }

/-- The environment after one sample of `LIVE_PID` and one entropy request. -/
def Env.afterRequest (e : Env) : Env := { e.afterSample with requests := e.requests + 1 }

/-- The environment after one sample of `LIVE_PID` and one entropy request that took its answer, with `rest` left. -/
def Env.afterGather (rest : List EntAnswer) (e : Env) : Env :=
  { e.afterRequest with entropy := rest, withdrawn := 0 }

/-- None of R74's three conditions holds in a seeded engine: a `STIR_IF_NEEDED(n)` does not trigger. -/
def Settled (n : Word) (s : State) : Prop := s.mode = .seeded ∧ n < s.count ∧ s.creatorPid = s.nextPid

/-- One of R74's three conditions holds in an engine that is not halted: a `STIR_IF_NEEDED(n)` triggers. -/
def Triggering (n : Word) (s : State) : Prop :=
  s.mode = .uninit ∨ (s.mode = .seeded ∧ (s.count ≤ n ∨ s.creatorPid ≠ s.nextPid))

/-- The length a command's first `STIR_IF_NEEDED` asks for (42_public_api.md R81, R82, R84); none for a command that runs
none. -/
def firstRequest : Instr → Option Word
  | .randomU32 => some 4
  | .randomFill len => some len
  | .randomUniform bound => if bound < 2 then none else some 4

/-- The unread bytes `BUF[1024 - have .. 1023]` (10_state.md R17). -/
def unread (s : State) : List Byte := s.buf.readBytes (1024 - s.haveReg.toNat) s.haveReg.toNat

/-- The unread bytes of a state and of its next `k` refills by `REKEY(none)`. -/
def unreadStream : Nat → State → List Byte
  | 0, s => unread s
  | k + 1, s => unread s ++ unreadStream k (rekey none s)

/-- Runs of `STIR_IF_NEEDED` one after another for these lengths, as long as none raises an entropy request. -/
def stirsWithoutGather : List Word → State → Option State
  | [], s => some s
  | n :: ns, s =>
    match stirIfNeeded n s with
    | .done _ t => if t.env.requests = s.env.requests then stirsWithoutGather ns t else none
    | _ => none

/-- The block counter `{x[13], x[12]}` (10_state.md R15). -/
def counterOf (x : CipherState) : BitVec 64 := x[13] ++ x[12]

end Sys2Proof.Machine
end

