-- ==== Sys2Proof/Certificates/Slice0/Obligations.lean ====
section
/-! DEFINITION. The statements for the provers. -/

open Sys2Proof Sys2Proof.Machine

/-- 30_encoding.md R46, R47: decoding the command word of a command gives the command back, at every argument. -/
def Obligations.DecodeEncodeRoundTrip : Prop :=
  ∀ i : Instr, i.wellFormed = true → decode (encode i) = .ok i

/-- 30_encoding.md R47, R56: a decoded word is the word of its command again; of `RANDOM_U32` only ARG, which is ignored,
is made canonical. -/
def Obligations.EncodeDecodeCanonical : Prop :=
  ∀ (w : CmdWord) (i : Instr), decode w = .ok i →
    encode i = if i = .randomU32 then 0x0100000000 else w

/-- 30_encoding.md R48: a word is illegal if and only if its OP is not 1, 2 or 3, in the opcode table as in the decoder;
an illegal word in an engine that is not halted changes no state, calls no oracle, emits no byte and is answered
`ERR_ILLEGAL`. -/
def Obligations.IllegalWordIffOpcode : Prop :=
  ∀ w : CmdWord,
    ((∃ i, decode w = .ok i) ↔ w.toNat / 2 ^ 32 ∈ [1, 2, 3]) ∧
    (w.wellFormed = true ↔ w.toNat / 2 ^ 32 ∈ [1, 2, 3]) ∧
    ∀ s : State, s.mode ≠ .halted → w.toNat / 2 ^ 32 ∉ [1, 2, 3] →
      dispatch w s = .next { s with seq := .responding [] ⟨.errIllegal, 0⟩ }

/-- 95_test_vectors.md V-ENC: words of the table decode as it says. -/
def Obligations.DecodeSampleWords : Prop :=
  decode 0x0100000000 = .ok .randomU32 ∧ decode 0x01deadbeef = .ok .randomU32 ∧
  decode 0x0200000000 = .ok (.randomFill 0) ∧ decode 0x0200000010 = .ok (.randomFill 16) ∧
  decode 0x02ffffffff = .ok (.randomFill 4294967295) ∧ decode 0x0300000006 = .ok (.randomUniform 6) ∧
  decode 0x0380000001 = .ok (.randomUniform 0x80000001) ∧ decode 0x0000000000 = .error (.illegalOpcode 0x00) ∧
  decode 0x0400000000 = .error (.illegalOpcode 0x04) ∧ decode 0xffffffffff = .error (.illegalOpcode 0xff) ∧
  decode 0x8100000000 = .error (.illegalOpcode 0x81)

/-- 30_encoding.md R56: the text of a command stands for its command word. -/
def Obligations.TextStandsForWord : Prop :=
  ∀ i : Instr, Text.parseLine (Text.printInstr i) = some (.command (encode i))

/-- 30_encoding.md R49, R55: a step of an idle engine accepts the presented word and runs the command it decodes to; the
step adds that the word leaves the host's list before, and that the host takes what it will of the response after. -/
def Obligations.StepRunsDecodedInstruction : Prop :=
  ∀ (s : State) (w : CmdWord) (rest : List CmdWord) (i : Instr),
    s.env.resetPin = false → s.seq = .idle → s.env.commands = w :: rest → decode w = .ok i → i.wellFormed = true →
    step s = deliverOutcome (exec i { s with env := { s.env with commands := rest } })

/-- Presenting a word (log entry 4) makes the very next step run it, whatever the state was. -/
def Obligations.PresentedWordRunsNext : Prop :=
  ∀ (s : State) (w : CmdWord) (i : Instr), decode w = .ok i →
    step (s.withFetchWord 40 w.toNat) =
      deliverOutcome (exec i { s with seq := .idle, env := { s.env with resetPin := false } })

/-- 60_exceptions.md R94: a halted engine answers every accepted word, legal or not, with `ERR_ENTROPY` and nothing else;
no step but a reset takes it out of HALTED, changes its state, calls an oracle or logs. -/
def Obligations.HaltedAnswersAndStays : Prop :=
  (∀ (s : State) (w : CmdWord), s.mode = .halted →
    dispatch w s = .next { s with seq := .responding [] ⟨.errEntropy, 0⟩ }) ∧
  (∀ (s : State) (w : CmdWord) (rest : List CmdWord), s.mode = .halted → s.env.resetPin = false → s.seq = .idle →
    s.env.commands = w :: rest → s.env.takes = none →
    step s = .next { s with env := { s.env with
      commands := rest, responses := s.env.responses ++ [⟨.errEntropy, 0⟩] } }) ∧
  (∀ s t : State, Inv s → s.mode = .halted → s.env.resetPin = false → step s = .next t →
    t.mode = .halted ∧ t.x = s.x ∧ t.buf = s.buf ∧ t.haveReg = s.haveReg ∧ t.count = s.count ∧
    t.creatorPid = s.creatorPid ∧ t.env.sampled = s.env.sampled ∧ t.env.requests = s.env.requests ∧
    t.env.logged = s.env.logged ∧ t.env.entropy = s.env.entropy ∧
    t.env.withdrawn = s.env.withdrawn) ∧
  (∀ s t : State, s.env.resetPin = true → step s = .next t → t.mode = .uninit)

/-- 60_exceptions.md R93: an illegal word in an engine that is not halted is answered `ERR_ILLEGAL` with data 0, and
nothing else changes. -/
def Obligations.IllegalWordAnswered : Prop :=
  ∀ (s : State) (w : CmdWord) (rest : List CmdWord), s.mode ≠ .halted → s.env.resetPin = false → s.seq = .idle →
    s.env.commands = w :: rest → s.env.takes = none → w.toNat / 2 ^ 32 ∉ [1, 2, 3] →
    step s = .next { s with env := { s.env with
      commands := rest, responses := s.env.responses ++ [⟨.errIllegal, 0⟩] } }

/-- 60_exceptions.md R105: with no command in progress and none presented the state is unchanged. -/
def Obligations.IdleEngineUnchanged : Prop :=
  ∀ s : State, s.env.resetPin = false → s.seq = .idle → s.env.commands = [] →
    step s = .next s ∧ s.outputs.cmdReady = true

/-- 70_reset_and_hazards.md R110, R111: RESET in any state gives the reset values; the command in progress gives no
response, nothing more is transferred, and where a request was pending its answer no longer counts. -/
def Obligations.ResetFromAnyState : Prop :=
  ∀ s : State, s.env.resetPin = true → ∃ t, step s = .next t ∧
    t.mode = .uninit ∧ (∀ i : Fin 16, t.x[i] = 0) ∧ (∀ a, t.buf.readByte a = 0) ∧ t.haveReg = 0 ∧ t.count = 0 ∧
    t.creatorPid = 0 ∧ t.seq = .idle ∧ t.env.responses = s.env.responses ∧ t.env.received = s.env.received ∧
    t.env.logged = s.env.logged ∧ t.env.commands = s.env.commands ∧
    (∀ cmd live, s.seq = .waiting cmd live → t.env.answers = s.env.answers.tail) ∧
    ((∀ cmd live, s.seq ≠ .waiting cmd live) → t.env.answers = s.env.answers)

/-- 70_reset_and_hazards.md R111: after a reset that withdrew a request with no answer yet, the next answer to come is late and
ignored: a command that gathers still waits, and with one more answer it runs as if the late one had never been. That
answers come in the order of the requests is the model's choice (log entry 5). -/
def Obligations.LateAnswerIgnoredAfterReset : Prop :=
  ∀ (s : State) (cmd : Instr) (live : Word), s.env.resetPin = true → s.seq = .waiting cmd live →
    s.env.withdrawn ≤ s.env.entropy.length → s.env.answers = [] → ∃ t, step s = .next t ∧
      ∀ (late : EntAnswer) (i : Instr) (n : Word), firstRequest i = some n →
        (∃ u l, exec i (t.queueEntropy late) = .next u ∧ u.seq = .waiting i l) ∧
        ∀ a : EntAnswer, exec i ((t.queueEntropy late).queueEntropy a) = exec i (t.forgetWithdrawn.queueEntropy a)

/-- 10_state.md R27: the values after reset, and the ports idle. The environment's part of the state is the model's choice
(log entry 6) and is not stated. -/
def Obligations.ResetValues : Prop :=
  State.reset.mode = .uninit ∧ (∀ i : Fin 16, State.reset.x[i] = 0) ∧ (∀ a, State.reset.buf.readByte a = 0) ∧
  State.reset.haveReg = 0 ∧ State.reset.count = 0 ∧ State.reset.creatorPid = 0 ∧ State.reset.seq = .idle ∧
  State.reset.outputs.cmdReady = true ∧ State.reset.outputs.rspValid = false ∧ State.reset.outputs.outValid = false ∧
  State.reset.outputs.entReq = false ∧ State.reset.outputs.logErr = false ∧ State.reset.outputs.modeOut = 0 ∧
  State.reset.outputs.fatal = false

/-- The invariant of 10_state.md R26 holds after reset. -/
def Obligations.InvHoldsAtReset : Prop := Inv State.reset

/-- The invariant of 10_state.md R26 is kept by every step from every state that has it. -/
def Obligations.StepKeepsInv : Prop := ∀ s t : State, Inv s → step s = .next t → Inv t

/-- 60_exceptions.md R90, 20_memory.md R31: from every state with the invariant the step answers a next state; no access
leaves `BUF`, no loop bound is used up (the model's own two faults, log entry 11), no command is refused. -/
def Obligations.StepNeverStops : Prop := ∀ s : State, Inv s → Advances s

/-- 10_state.md R29: without reset the mode goes only from UNINIT to SEEDED or HALTED and from SEEDED to HALTED, and each
change uses up an answer of the entropy port. -/
def Obligations.LifecycleTransitions : Prop :=
  ∀ s t : State, Inv s → s.env.resetPin = false → step s = .next t →
    (s.mode = .halted → t.mode = .halted) ∧ (t.mode = .uninit → s.mode = .uninit) ∧
    (t.mode ≠ s.mode → t.env.answers.length < s.env.answers.length)

/-- 30_encoding.md R54: one `LOG_ERR` pulse with code 0x01 in the step that enters HALTED, and in no other step. -/
def Obligations.LogsExactlyOnHalting : Prop :=
  ∀ s t : State, Inv s → step s = .next t →
    t.env.logged = s.env.logged ++ (if s.mode ≠ .halted ∧ t.mode = .halted then [0x01] else [])

/-- 30_encoding.md R51, R55: a host that never stalls, or stalls only after more transfers than there are bytes, takes every
output byte in order, `OUT_LAST` on the last one only, and then the response record, and nothing else changes. The count
of transfers is the model's choice (log entry 10). -/
def Obligations.ReadyHostTakesAll : Prop :=
  ∀ (s : State) (out : List Byte) (rsp : Response), s.env.resetPin = false → s.seq = .responding out rsp →
    (∀ k, s.env.takes = some k → out.length < k) → ∃ ts : List OutTransfer,
      ts.map (·.byte) = out ∧ (∀ k, (h : k < ts.length) → (ts[k].last = true ↔ k + 1 = out.length)) ∧
      step s = .next { s with
        seq := .idle
        env := { s.env with
          received := s.env.received ++ ts
          responses := s.env.responses ++ [rsp]
          takes := s.env.takes.map (· - (out.length + 1)) } }

/-- 30_encoding.md R55, 92_eei_decisions.md D29: a host that takes `k` more bytes and then stalls gets those bytes, `OUT_LAST`
on the last of all only; the rest and the record stay on the ports, nothing else changes, and the engine accepts no
command while the host stalls. The count of transfers is the model's choice (log entry 10). -/
def Obligations.StalledHostHoldsEngine : Prop :=
  ∀ (s : State) (out : List Byte) (rsp : Response) (k : Nat), s.env.resetPin = false →
    s.seq = .responding out rsp → s.env.takes = some k → k ≤ out.length → ∃ ts : List OutTransfer,
      ts.map (·.byte) = out.take k ∧ (∀ j, (h : j < ts.length) → (ts[j].last = true ↔ j + 1 = out.length)) ∧
      let t := { s with
        seq := .responding (out.drop k) rsp
        env := { s.env with received := s.env.received ++ ts, takes := some 0 } }
      step s = .next t ∧ t.outputs.cmdReady = false ∧ step t = .next t

/-- 30_encoding.md R50, 20_memory.md R41: an accepted word leaves the host's list and is answered by exactly one record,
or its command is waiting for entropy and has no record yet. -/
def Obligations.AcceptedWordAnsweredOnce : Prop :=
  ∀ (s t : State) (w : CmdWord) (rest : List CmdWord), s.haveReg.toNat ≤ 1024 → s.env.resetPin = false →
    s.seq = .idle → s.env.takes = none → s.env.commands = w :: rest → step s = .next t →
    t.env.commands = rest ∧
    ((t.seq = .idle ∧ ∃ r, t.env.responses = s.env.responses ++ [r]) ∨
      ((∃ cmd live, t.seq = .waiting cmd live) ∧ t.env.responses = s.env.responses))

/-- 10_state.md R20, R24, R25 and 30_encoding.md R50, R51, R52, R55, R59: MODE and FATAL follow `mode`, by the spec's codes; the
other ports show whether the engine is ready, asks for entropy, hands over a byte or holds its response record; and no
output depends on `x`, `BUF`, `have`, `count` or `creator_pid`. -/
def Obligations.OutputsShowModeOnly : Prop :=
  ∀ (s : State) (x : CipherState) (b : Memory) (h : BitVec 11) (c p : Word),
    (s.outputs.modeOut = match s.mode with | .uninit => 0 | .seeded => 1 | .halted => 2) ∧
    (s.outputs.fatal = true ↔ s.mode = .halted) ∧
    ({ s with x := x, buf := b, haveReg := h, count := c, creatorPid := p } : State).outputs = s.outputs ∧
    (s.seq = .idle → s.outputs.cmdReady = true ∧ s.outputs.rspValid = false ∧ s.outputs.outValid = false ∧
      s.outputs.entReq = false) ∧
    (∀ cmd live, s.seq = .waiting cmd live → s.outputs.cmdReady = false ∧ s.outputs.rspValid = false ∧
      s.outputs.outValid = false ∧ s.outputs.entReq = true) ∧
    (∀ v out rsp, s.seq = .responding (v :: out) rsp → s.outputs.cmdReady = false ∧ s.outputs.rspValid = false ∧
      s.outputs.outValid = true ∧ s.outputs.outByte = v ∧ (s.outputs.outLast = true ↔ out = []) ∧
      s.outputs.entReq = false) ∧
    (∀ rsp, s.seq = .responding [] rsp → s.outputs.cmdReady = false ∧ s.outputs.rspValid = true ∧
      (s.outputs.rspStatus = match rsp.status with | .ok => 0 | .errEntropy => 1 | .errIllegal => 2) ∧
      s.outputs.rspData = rsp.data ∧ s.outputs.outValid = false ∧ s.outputs.entReq = false)

/-- 40_cipher_core.md R60: bit `i` becomes bit `(i + n) mod 32`, for the four amounts in use. -/
def Obligations.RotationMovesBits : Prop :=
  ∀ (v : Word) (n i : Nat), n ∈ [16, 12, 8, 7] → i < 32 →
    (rotl32 v n).getLsbD ((i + n) % 32) = v.getLsbD i ∧
    (rotl32 v n).toNat = (v.toNat * 2 ^ n) % 2 ^ 32 + v.toNat / 2 ^ (32 - n)

/-- 40_cipher_core.md R61: on four distinct words the twelve assignments give those four words, write no other word, keep
zero, and can be undone. -/
def Obligations.QuarterRoundWords : Prop :=
  (∀ (a b c d : Fin 16) (w : CipherState), [a, b, c, d].Nodup →
    let wa := w[a] + w[b]; let wd := rotl32 (w[d] ^^^ wa) 16
    let wc := w[c] + wd; let wb := rotl32 (w[b] ^^^ wc) 12
    let wa' := wa + wb; let wd' := rotl32 (wd ^^^ wa') 8
    let wc' := wc + wd'; let wb' := rotl32 (wb ^^^ wc') 7
    (quarterRound a b c d w)[a] = wa' ∧ (quarterRound a b c d w)[b] = wb' ∧ (quarterRound a b c d w)[c] = wc' ∧
    (quarterRound a b c d w)[d] = wd' ∧ ∀ j : Fin 16, j ∉ [a, b, c, d] → (quarterRound a b c d w)[j] = w[j]) ∧
  quarterWords 0 0 0 0 = (0, 0, 0, 0) ∧
  Function.Bijective (fun q : Word × Word × Word × Word => quarterWords q.1 q.2.1 q.2.2.1 q.2.2.2)

/-- 40_cipher_core.md R65: the four quarter rounds of one round touch disjoint words, so any order of them gives the same
round; a double round is the column round, then the diagonal round. -/
def Obligations.RoundsAnyOrder : Prop :=
  ∀ (l : List (Fin 16 × Fin 16 × Fin 16 × Fin 16)) (w : CipherState),
    (l.Perm [(0, 4, 8, 12), (1, 5, 9, 13), (2, 6, 10, 14), (3, 7, 11, 15)] →
      l.foldl (fun w q => quarterRound q.1 q.2.1 q.2.2.1 q.2.2.2 w) w = columnRound w) ∧
    (l.Perm [(0, 5, 10, 15), (1, 6, 11, 12), (2, 7, 8, 13), (3, 4, 9, 14)] →
      l.foldl (fun w q => quarterRound q.1 q.2.1 q.2.2.1 q.2.2.2 w) w = diagonalRound w) ∧
    doubleRound w = diagonalRound (columnRound w)

/-- 95_test_vectors.md S4: the known-answer block of the all-zero key, nonce and counter. -/
def Obligations.BlockKnownAnswer : Prop :=
  (blockTransform #v[0x61707865, 0x3320646e, 0x79622d32, 0x6b206574, 0, 0, 0, 0, 0, 0, 0, 0, 0, 0, 0, 0]).1 =
    [0x76, 0xb8, 0xe0, 0xad, 0xa0, 0xf1, 0x3d, 0x90, 0x40, 0x5d, 0x6a, 0xe5, 0x53, 0x86, 0xbd, 0x28,
      0xbd, 0xd2, 0x19, 0xb8, 0xa0, 0x8d, 0xed, 0x1a, 0xa8, 0x36, 0xef, 0xcc, 0x8b, 0x77, 0x0d, 0xc7,
      0xda, 0x41, 0x59, 0x7c, 0x51, 0x57, 0x48, 0x8d, 0x77, 0x24, 0xe0, 0x3f, 0xb8, 0xd8, 0x4a, 0x37,
      0x6a, 0x43, 0xb8, 0xf4, 0x15, 0x18, 0xa1, 0x1c, 0xc3, 0x87, 0xb6, 0x69, 0xb2, 0xee, 0x65, 0x86]

/-- 40_cipher_core.md R66: byte `4i + k` of a block is bits `[8k+7:8k]` of the final word `i`, which by R64 is the word
after ten double rounds plus the original word. -/
def Obligations.BlockSerialization : Prop :=
  ∀ x : CipherState, (blockTransform x).1.length = 64 ∧
    ∀ (i : Fin 16) (k : Nat), k < 4 →
      (blockTransform x).1[4 * i.val + k]? = some (((rounds 10 x)[i] + x[i]).extractLsb' (8 * k) 8)

/-- 40_cipher_core.md R67 and 10_state.md R14: a block transform adds 1 to the 64-bit counter, low word first, wrapping
silently, and writes no other word. -/
def Obligations.BlockAdvancesCounterOnly : Prop :=
  ∀ x : CipherState,
    (blockTransform x).2[12] = x[12] + 1 ∧
    (blockTransform x).2[13] = (if x[12] + 1 = 0 then x[13] + 1 else x[13]) ∧
    counterOf (blockTransform x).2 = counterOf x + 1 ∧
    ∀ j : Fin 16, j ≠ 12 → j ≠ 13 → (blockTransform x).2[j] = x[j]

/-- 40_cipher_core.md R68: `GENERATE(length)` emits consecutive blocks and truncates a final partial one; so it returns exactly
`length` bytes, a shorter request gets a prefix of a longer one, and the counter advances by the number of blocks, a partial
one counting as whole. -/
def Obligations.GenerateLengthAndCounter : Prop :=
  ∀ (x : CipherState) (n m : Nat),
    generate 0 x = ([], x) ∧
    (0 < n → n < 64 → generate n x = ((blockTransform x).1.take n, (blockTransform x).2)) ∧
    (64 ≤ n → generate n x = ((blockTransform x).1 ++ (generate (n - 64) (blockTransform x).2).1,
      (generate (n - 64) (blockTransform x).2).2)) ∧
    (generate n x).1.length = n ∧ (m ≤ n → (generate m x).1 = (generate n x).1.take m) ∧
    counterOf (generate n x).2 = counterOf x + BitVec.ofNat 64 ((n + 63) / 64) ∧
    ∀ j : Fin 16, j ≠ 12 → j ≠ 13 → (generate n x).2[j] = x[j]

/-- 41_generator_policy.md R70, R71 with 40_cipher_core.md R62, R63: `INIT(seed)` writes all 16 words: constants, key
words from bytes 0 to 31, counter 0, nonce words from bytes 32 to 39, each word little-endian. -/
def Obligations.InitLoadsSeed : Prop :=
  ∀ (seed : List Byte) (x : CipherState), seed.length = 40 →
    HasConstants (initCipher seed x) ∧ CounterZero (initCipher seed x) ∧
    (∀ (i : Nat) (h : i < 8), (initCipher seed x)[4 + i].toNat =
      (seed.getD (4 * i) 0).toNat + 2 ^ 8 * (seed.getD (4 * i + 1) 0).toNat +
        2 ^ 16 * (seed.getD (4 * i + 2) 0).toNat + 2 ^ 24 * (seed.getD (4 * i + 3) 0).toNat) ∧
    (∀ (i : Nat) (h : i < 2), (initCipher seed x)[14 + i].toNat =
      (seed.getD (32 + 4 * i) 0).toNat + 2 ^ 8 * (seed.getD (32 + 4 * i + 1) 0).toNat +
        2 ^ 16 * (seed.getD (32 + 4 * i + 2) 0).toNat + 2 ^ 24 * (seed.getD (32 + 4 * i + 3) 0).toNat)

/-- 20_memory.md R33: the two helpers by their formulas, inverse to each other, with the worked example. -/
def Obligations.LittleEndianInverse : Prop :=
  (∀ b0 b1 b2 b3 : Byte,
    (le32 b0 b1 b2 b3).toNat = b0.toNat + 256 * b1.toNat + 65536 * b2.toNat + 16777216 * b3.toNat ∧
    bytesLe32 (le32 b0 b1 b2 b3) = [b0, b1, b2, b3]) ∧
  (∀ v : Word, bytesLe32 v =
      [BitVec.ofNat 8 v.toNat, BitVec.ofNat 8 (v.toNat / 256), BitVec.ofNat 8 (v.toNat / 65536),
        BitVec.ofNat 8 (v.toNat / 16777216)] ∧
    leWordAt (bytesLe32 v) 0 = v) ∧
  le32 0x77 0x24 0xe0 0x3f = 0x3fe02477

/-- 41_generator_policy.md R72: the state after `REKEY(extra)`. -/
def Obligations.RekeyEffect : Prop :=
  ∀ (s : State) (extra : Option (List Byte)), (∀ e, extra = some e → e.length = 40) →
    let ks := (generate 1024 s.x).1
    let mixed := match extra with
      | none => ks.take 40
      | some e => List.zipWith (· ^^^ ·) (ks.take 40) e
    let t := rekey extra s
    (∀ a, a < 40 → t.buf.readByte a = 0) ∧ (∀ a, 40 ≤ a → a < 1024 → t.buf.readByte a = ks.getD a 0) ∧
    t.x = initCipher mixed s.x ∧ t.haveReg = 984 ∧ t.count = s.count ∧ t.creatorPid = s.creatorPid ∧
    t.mode = s.mode ∧ t.seq = s.seq ∧ t.env = s.env

/-- 41_generator_policy.md R72 and 90_conflicts.md C2: 40 zero bytes of `extra` change nothing, and what the buffer and
`have` were before changes nothing. -/
def Obligations.RekeyIgnoresZeroExtraAndOldBuffer : Prop :=
  ∀ (s : State) (extra : Option (List Byte)) (b : Memory) (h : BitVec 11), s.buf.wf → b.wf →
    rekey (some (List.replicate 40 0)) s = rekey none s ∧
    rekey extra { s with buf := b, haveReg := h } = rekey extra s

/-- The canonical form of the buffer is one for each content: equal reads, equal data. -/
def Obligations.EqualReadsEqualMemory : Prop :=
  ∀ m n : Memory, m.wf → n.wf → (∀ a, a < 1024 → m.readByte a = n.readByte a) → m = n

/-- 42_public_api.md R80, R83 and 20_memory.md R31: `CONSUME(m)` hands out the next `m` unread bytes from address
`1024 - have`, zeroes them, lowers `have`, and touches nothing else; its range lies in 40 to 1023 when `have <= 984`. -/
def Obligations.ConsumeHandsOutAndZeroes : Prop :=
  ∀ (s : State) (m : Nat), 1 ≤ m → m ≤ s.haveReg.toNat → s.haveReg.toNat ≤ 1024 → ∃ (data : List Byte) (t : State),
    consume m s = .done data t ∧ data.length = m ∧
    (∀ k, k < m → data.getD k 0 = s.buf.readByte (1024 - s.haveReg.toNat + k) ∧
      t.buf.readByte (1024 - s.haveReg.toNat + k) = 0) ∧
    (∀ a, a < 1024 - s.haveReg.toNat ∨ 1024 - s.haveReg.toNat + m ≤ a → t.buf.readByte a = s.buf.readByte a) ∧
    t.haveReg.toNat = s.haveReg.toNat - m ∧
    (s.haveReg.toNat ≤ 984 → 40 ≤ 1024 - s.haveReg.toNat ∧ 1024 - s.haveReg.toNat + m ≤ 1024) ∧
    t.x = s.x ∧ t.count = s.count ∧ t.creatorPid = s.creatorPid ∧ t.mode = s.mode ∧ t.seq = s.seq ∧ t.env = s.env

/-- 20_memory.md R34, R36: consuming `m` bytes and then `n` is consuming `m + n`: no byte is skipped or handed out twice. -/
def Obligations.ConsumeInPieces : Prop :=
  ∀ (s : State) (m n : Nat), m + n ≤ s.haveReg.toNat → s.haveReg.toNat ≤ 1024 → s.buf.wf →
    consume (m + n) s = (consume m s).andThen fun b t => (consume n t).andThen fun c u => .done (b ++ c) u

/-- 41_generator_policy.md R76: without a trigger only `count` moves, beside the one sample of the identity, and it stays
at least 1. -/
def Obligations.StirWithoutTriggerCharges : Prop :=
  ∀ (s : State) (n : Word), Settled n s →
    stirIfNeeded n s = .done () { s with count := s.count - n, env := s.env.afterSample } ∧
    (s.count - n).toNat = s.count.toNat - n.toNat ∧ 1 ≤ (s.count - n).toNat

/-- 41_generator_policy.md R74, R75 and 30_encoding.md R52: a triggered `STIR_IF_NEEDED` whose gather answers keys the engine from
the answer (UNINIT) or by `REKEY(seed)` (SEEDED), seed byte `i` being bits `8i` to `8i + 7` of the data, and sets the control
registers. -/
def Obligations.StirWithTriggerReseeds : Prop :=
  ∀ (s : State) (n : Word) (a : EntAnswer) (rest : List EntAnswer), Triggering n s →
    s.env.answers = a :: rest → a.fail = false → ∃ t, stirIfNeeded n s = .done () t ∧
      a.seed.length = 40 ∧ (∀ i, i < 40 → a.seed[i]? = some (a.data.extractLsb' (8 * i) 8)) ∧
      (s.mode = .uninit → t.x = initCipher a.seed s.x ∧ t.buf = s.buf) ∧
      (s.mode = .seeded → t.x = (rekey (some a.seed) s).x ∧ t.buf = (rekey (some a.seed) s).buf) ∧
      t.count = 1600000 ∧ t.haveReg = 0 ∧ t.creatorPid = s.nextPid ∧ t.mode = .seeded ∧ t.seq = s.seq ∧
      t.env = s.env.afterGather rest

/-- 41_generator_policy.md R79: after a reseed and with the identity unchanged, no request gathers exactly as long as the
requested lengths sum to less than the budget; `count` is what is left of it. -/
def Obligations.ReseedAtBudgetBoundary : Prop :=
  ∀ (s : State) (ns : List Word), s.mode = .seeded → s.count = 1600000 → s.env.pidSamples = [] →
    s.env.livePid = s.creatorPid →
    ((∃ t, stirsWithoutGather ns s = some t) ↔ (ns.map BitVec.toNat).sum < 1600000) ∧
    ∀ t, stirsWithoutGather ns s = some t → t.count.toNat = 1600000 - (ns.map BitVec.toNat).sum

/-- 60_exceptions.md R92: a gather that fails, in any `STIR_IF_NEEDED` of any command, logs once, halts the engine, answers
`ERR_ENTROPY` with data 0 and no output byte, and writes nothing else; no further micro-operation runs. -/
def Obligations.EntropyFailureHalts : Prop :=
  ∀ (s : State) (n : Word) (a : EntAnswer) (rest : List EntAnswer), Triggering n s → s.env.answers = a :: rest →
    a.fail = true →
    let t := { s with
      mode := .halted
      seq := .responding [] ⟨.errEntropy, 0⟩
      env := { s.env.afterGather rest with logged := s.env.logged ++ [0x01] } }
    (∀ k : Unit → State → Micro Reply, (stirIfNeeded n s).andThen k = .raised t) ∧
    (∀ cmd, finish cmd (.raised t) = .next t) ∧
    ∀ i, firstRequest i = some n → exec i s = .next t

/-- 60_exceptions.md R96: a command whose gather is not answered waits with `ENT_REQ` raised, `CMD_READY` 0, no response and
no change of the engine's state, and every further step leaves it waiting. -/
def Obligations.UnansweredGatherHangs : Prop :=
  ∀ (s : State) (i : Instr) (n : Word), firstRequest i = some n → Triggering n s → s.env.answers = [] →
    ∃ t, exec i s = .next t ∧
      t = { s with seq := .waiting i s.nextPid, env := s.env.afterRequest } ∧
      t.outputs.entReq = true ∧ t.outputs.cmdReady = false ∧
      (t.env.resetPin = false → ∀ k, Host.Core.run Sys2Proof.core k t = .next t)

/-- 30_encoding.md R52: an answer that comes while a command waits gives exactly the run that the same answer, ready from the
start, gives. -/
def Obligations.LateAnswerSameRun : Prop :=
  ∀ (s t : State) (i j : Instr) (live : Word) (a : EntAnswer), exec i s = .next t → t.seq = .waiting j live →
    j = i ∧ resume i live (t.queueEntropy a) = exec i (s.queueEntropy a)

/-- 42_public_api.md R81: `RANDOM_U32` without a trigger and with four unread bytes answers their little-endian word, zeroes
them, charges 4, and changes nothing else. -/
def Obligations.RandomU32FromBuffer : Prop :=
  ∀ s : State, Settled 4 s → 4 ≤ s.haveReg.toNat → s.haveReg.toNat ≤ 1024 → ∃ t,
    let a := 1024 - s.haveReg.toNat
    exec .randomU32 s = .next t ∧
    t.seq = .responding [] ⟨.ok, le32 (s.buf.readByte a) (s.buf.readByte (a + 1)) (s.buf.readByte (a + 2))
      (s.buf.readByte (a + 3))⟩ ∧
    (∀ k, k < 4 → t.buf.readByte (a + k) = 0) ∧
    (∀ b, b < a ∨ a + 4 ≤ b → t.buf.readByte b = s.buf.readByte b) ∧
    t.haveReg = s.haveReg - 4 ∧ t.count = s.count - 4 ∧ t.x = s.x ∧ t.creatorPid = s.creatorPid ∧ t.mode = s.mode ∧
    t.env = s.env.afterSample

/-- 42_public_api.md R81 corner (a): `RANDOM_U32` without a trigger and with fewer than four unread bytes rekeys, loses them,
and answers keystream bytes 40 to 43. -/
def Obligations.RandomU32AfterRekey : Prop :=
  ∀ s : State, Settled 4 s → s.haveReg.toNat < 4 → ∃ t,
    let ks := (generate 1024 s.x).1
    exec .randomU32 s = .next t ∧ t.seq = .responding [] ⟨.ok, leWordAt ks 40⟩ ∧
    (∀ a, a < 44 → t.buf.readByte a = 0) ∧ (∀ a, 44 ≤ a → a < 1024 → t.buf.readByte a = ks.getD a 0) ∧
    t.x = initCipher (ks.take 40) s.x ∧ t.haveReg = 980 ∧ t.count = s.count - 4 ∧ t.creatorPid = s.creatorPid ∧
    t.mode = s.mode ∧ t.env = s.env.afterSample

/-- 42_public_api.md R81 corners (b) and (d): `RANDOM_U32` with a trigger and an answered gather reseeds, rekeys once more, and
answers keystream bytes 40 to 43 of the key so made, seed byte `i` being bits `8i` to `8i + 7` of the data; the request is not
charged. -/
def Obligations.RandomU32AfterReseed : Prop :=
  ∀ (s : State) (a : EntAnswer) (rest : List EntAnswer), Triggering 4 s → s.env.answers = a :: rest → a.fail = false →
    ∃ t,
      let keyed := if s.mode = .uninit then initCipher a.seed s.x else (rekey (some a.seed) s).x
      let ks := (generate 1024 keyed).1
      a.seed.length = 40 ∧ (∀ i, i < 40 → a.seed[i]? = some (a.data.extractLsb' (8 * i) 8)) ∧
      exec .randomU32 s = .next t ∧ t.seq = .responding [] ⟨.ok, leWordAt ks 40⟩ ∧
      (∀ b, b < 44 → t.buf.readByte b = 0) ∧ (∀ b, 44 ≤ b → b < 1024 → t.buf.readByte b = ks.getD b 0) ∧
      t.x = initCipher (ks.take 40) keyed ∧ t.haveReg = 980 ∧ t.count = 1600000 ∧ t.creatorPid = s.nextPid ∧
      t.mode = .seeded ∧ t.env = s.env.afterGather rest

/-- 20_memory.md R32: from a state with no unread byte, with at least four, or in which a reseed is due, `RANDOM_FILL 4` emits
the `bytes_le32` of the word that `RANDOM_U32` answers, and both leave the same state. -/
def Obligations.FillFourMatchesWord : Prop :=
  ∀ s : State, s.haveReg.toNat ≤ 1024 →
    ((Settled 4 s ∧ (s.haveReg = 0 ∨ 4 ≤ s.haveReg.toNat)) ∨
      (Triggering 4 s ∧ ∃ a rest, s.env.answers = a :: rest ∧ a.fail = false)) →
    ∃ (t : State) (v : Word), exec .randomU32 s = .next { t with seq := .responding [] ⟨.ok, v⟩ } ∧
      exec (.randomFill 4) s = .next { t with seq := .responding (bytesLe32 v) ⟨.ok, 0⟩ }

/-- 42_public_api.md R82 corners (a) and (b): `RANDOM_FILL len` without a trigger and with `len` unread bytes emits them,
zeroes them, charges `len`, runs no rekey even when it takes the last one, and changes nothing else. -/
def Obligations.RandomFillFromBuffer : Prop :=
  ∀ (s : State) (len : Word), Settled len s → len.toNat ≤ s.haveReg.toNat → s.haveReg.toNat ≤ 1024 → ∃ t,
    let a := 1024 - s.haveReg.toNat
    exec (.randomFill len) s = .next t ∧
    t.seq = .responding ((List.range len.toNat).map fun k => s.buf.readByte (a + k)) ⟨.ok, 0⟩ ∧
    (∀ k, k < len.toNat → t.buf.readByte (a + k) = 0) ∧
    (∀ b, b < a ∨ a + len.toNat ≤ b → t.buf.readByte b = s.buf.readByte b) ∧
    t.haveReg.toNat = s.haveReg.toNat - len.toNat ∧ t.count = s.count - len ∧ t.x = s.x ∧
    t.creatorPid = s.creatorPid ∧ t.mode = s.mode ∧ t.env = s.env.afterSample

/-- 42_public_api.md R82, 30_encoding.md R51: once its `STIR_IF_NEEDED` is done, `RANDOM_FILL len` emits exactly the next `len`
bytes of the stream of unread bytes and refills, whatever `len` is, and calls no further oracle. -/
def Obligations.RandomFillEmitsStream : Prop :=
  ∀ (s s₁ : State) (len : Word), s.mode ≠ .halted → stirIfNeeded len s = .done () s₁ → s₁.haveReg.toNat ≤ 1024 →
    s₁.buf.wf → ∃ t,
      exec (.randomFill len) s = .next t ∧
      t.seq = .responding ((unreadStream len.toNat s₁).take len.toNat) ⟨.ok, 0⟩ ∧
      ((unreadStream len.toNat s₁).take len.toNat).length = len.toNat ∧
      t.count = s₁.count ∧ t.creatorPid = s₁.creatorPid ∧ t.mode = s₁.mode ∧ t.env = s₁.env

/-- 42_public_api.md R82 corner (c), R88: a fill that starts with `h` unread bytes runs `ceil((len - h) / 984)` rekeys when
`len > h` and none otherwise; after a rekey all bytes below the unread ones are zero and the unread ones are the last
refill's. -/
def Obligations.RandomFillRekeyCount : Prop :=
  ∀ (s s₁ : State) (len : Word), s.mode ≠ .halted → stirIfNeeded len s = .done () s₁ → s₁.haveReg.toNat ≤ 1024 →
    s₁.buf.wf → ∃ t,
      let k := (len.toNat - s₁.haveReg.toNat + 983) / 984
      exec (.randomFill len) s = .next t ∧ t.x = ((rekey none)^[k] s₁).x ∧
      t.haveReg.toNat = s₁.haveReg.toNat + 984 * k - len.toNat ∧
      (s₁.haveReg.toNat < len.toNat → ∀ a, a < 1024 → t.buf.readByte a =
        if a < 1024 - t.haveReg.toNat then 0 else ((rekey none)^[k] s₁).buf.readByte a)

/-- 42_public_api.md R84: `RANDOM_UNIFORM` with a bound below 2 answers 0, with no oracle call and no state change. -/
def Obligations.RandomUniformTrivialBound : Prop :=
  ∀ (s : State) (bound : Word), bound < 2 → s.mode ≠ .halted →
    exec (.randomUniform bound) s = .next { s with seq := .responding [] ⟨.ok, 0⟩ }

/-- 42_public_api.md R84: `RANDOM_UNIFORM` accepts a draw of at least `min` and answers it modulo the bound, in the state the draw
left. The draw is then spelled out for its three ways: from the buffer, after `REKEY(none)`, and after an answered reseed. -/
def Obligations.RandomUniformAccepts : Prop :=
  ∀ (s : State) (bound : Word), 2 ≤ bound →
    (∀ (v : Word) (t : State), s.mode ≠ .halted → nextU32 s = .done v t → 2 ^ 32 % bound.toNat ≤ v.toNat →
      exec (.randomUniform bound) s =
        .next { t with seq := .responding [] ⟨.ok, BitVec.ofNat 32 (v.toNat % bound.toNat)⟩ }) ∧
    (let a := 1024 - s.haveReg.toNat
      let v := le32 (s.buf.readByte a) (s.buf.readByte (a + 1)) (s.buf.readByte (a + 2)) (s.buf.readByte (a + 3))
      Settled 4 s → 4 ≤ s.haveReg.toNat → s.haveReg.toNat ≤ 1024 → 2 ^ 32 % bound.toNat ≤ v.toNat → ∃ t,
        exec (.randomUniform bound) s = .next t ∧
        t.seq = .responding [] ⟨.ok, BitVec.ofNat 32 (v.toNat % bound.toNat)⟩ ∧
        (∀ k, k < 4 → t.buf.readByte (a + k) = 0) ∧
        (∀ b, b < a ∨ a + 4 ≤ b → t.buf.readByte b = s.buf.readByte b) ∧
        t.haveReg = s.haveReg - 4 ∧ t.count = s.count - 4 ∧ t.x = s.x ∧ t.creatorPid = s.creatorPid ∧
        t.mode = s.mode ∧ t.env = s.env.afterSample) ∧
    (let ks := (generate 1024 s.x).1
      let v := leWordAt ks 40
      Settled 4 s → s.haveReg.toNat < 4 → 2 ^ 32 % bound.toNat ≤ v.toNat → ∃ t,
        exec (.randomUniform bound) s = .next t ∧
        t.seq = .responding [] ⟨.ok, BitVec.ofNat 32 (v.toNat % bound.toNat)⟩ ∧
        (∀ b, b < 44 → t.buf.readByte b = 0) ∧ (∀ b, 44 ≤ b → b < 1024 → t.buf.readByte b = ks.getD b 0) ∧
        t.x = initCipher (ks.take 40) s.x ∧ t.haveReg = 980 ∧ t.count = s.count - 4 ∧
        t.creatorPid = s.creatorPid ∧ t.mode = s.mode ∧ t.env = s.env.afterSample) ∧
    ∀ (a : EntAnswer) (rest : List EntAnswer),
      let keyed := if s.mode = .uninit then initCipher a.seed s.x else (rekey (some a.seed) s).x
      let ks := (generate 1024 keyed).1
      let v := leWordAt ks 40
      Triggering 4 s → s.env.answers = a :: rest → a.fail = false → 2 ^ 32 % bound.toNat ≤ v.toNat → ∃ t,
        exec (.randomUniform bound) s = .next t ∧
        t.seq = .responding [] ⟨.ok, BitVec.ofNat 32 (v.toNat % bound.toNat)⟩ ∧
        (∀ b, b < 44 → t.buf.readByte b = 0) ∧ (∀ b, 44 ≤ b → b < 1024 → t.buf.readByte b = ks.getD b 0) ∧
        t.x = initCipher (ks.take 40) keyed ∧ t.haveReg = 980 ∧ t.count = 1600000 ∧ t.creatorPid = s.nextPid ∧
        t.mode = .seeded ∧ t.env = s.env.afterGather rest

/-- 42_public_api.md R84: a draw below `min` is rejected and the command goes on from the state the draw left, with the policy
checked again at the next draw. -/
def Obligations.RandomUniformRejectsAndRedraws : Prop :=
  ∀ (s t : State) (bound v : Word), 2 ≤ bound → s.mode ≠ .halted → nextU32 s = .done v t →
    v.toNat < 2 ^ 32 % bound.toNat → exec (.randomUniform bound) s = exec (.randomUniform bound) t

/-- 95_test_vectors.md S1, 42_public_api.md R86: every OK answer of `RANDOM_UNIFORM` lies in `[0, bound)`, or is 0 for a bound
below 2, and comes with no output byte. -/
def Obligations.RandomUniformInRange : Prop :=
  ∀ (s t : State) (bound v : Word) (out : List Byte), s.haveReg.toNat ≤ 1024 →
    exec (.randomUniform bound) s = .next t → t.seq = .responding out ⟨.ok, v⟩ →
    out = [] ∧ (2 ≤ bound → v < bound) ∧ (bound < 2 → v = 0)

/-- 42_public_api.md R85: the rejection threshold. -/
def Obligations.RejectionThreshold : Prop :=
  (∀ bound : Word, 2 ≤ bound →
    (-bound).toNat = 2 ^ 32 - bound.toNat ∧ (threshold bound).toNat = (2 ^ 32 - bound.toNat) % bound.toNat ∧
    (threshold bound).toNat = 2 ^ 32 % bound.toNat ∧ threshold bound < bound ∧ (threshold bound).toNat < 2 ^ 31 ∧
    bound.toNat ∣ 2 ^ 32 - (threshold bound).toNat) ∧
  ([2, 3, 5, 6, 7, 10, 0x10000, 1000000, 0x7fffffff, 0x80000000, 0x80000001, 0xffffffff] : List Word).map threshold =
    [0, 1, 1, 4, 4, 6, 0, 967296, 2, 0, 0x7fffffff, 1]

/-- 42_public_api.md R86: each residue is the image of exactly `(2^32 - min) / bound` accepted draws. -/
def Obligations.AcceptedDrawsUniform : Prop :=
  ∀ bound r : Word, 2 ≤ bound → r < bound →
    ((Finset.range (2 ^ 32)).filter fun v => (threshold bound).toNat ≤ v ∧ v % bound.toNat = r.toNat).card =
      (2 ^ 32 - (threshold bound).toNat) / bound.toNat

/-- Every command, from every state whose unread bytes lie in `BUF`, answers or waits for entropy: it never stops the model,
and the sampler never uses up its bound on draws (log entry 7, a choice of the model's form). -/
def Obligations.EveryCommandAnswersOrWaits : Prop :=
  ∀ (i : Instr) (s : State), s.haveReg.toNat ≤ 1024 → ∃ t, exec i s = .next t ∧
    ((∃ out rsp, t.seq = .responding out rsp) ∨ ∃ live, t.seq = .waiting i live)

/-- 42_public_api.md R81, R82: `RANDOM_U32` and `RANDOM_FILL` take exactly one sample of the identity and raise at most one
entropy request, none exactly when the policy check does not trigger. -/
def Obligations.OneSamplePerCommand : Prop :=
  ∀ (s t : State) (i : Instr) (n : Word), (∀ bound, i ≠ .randomUniform bound) → firstRequest i = some n →
    s.mode ≠ .halted → exec i s = .next t →
    t.env.sampled = s.env.sampled + 1 ∧
    (Settled n s → t.env.requests = s.env.requests) ∧ (Triggering n s → t.env.requests = s.env.requests + 1)

/-- 95_test_vectors.md S6, 70_reset_and_hazards.md R118: when a reseed is due and answered, nothing of the unread bytes reaches
the outcome: another buffer content and another `have` give the same outcome. -/
def Obligations.ReseedIgnoresUnreadBytes : Prop :=
  ∀ (s : State) (b : Memory) (h : BitVec 11) (a : EntAnswer) (rest : List EntAnswer) (i : Instr) (n : Word),
    s.buf.wf → b.wf → firstRequest i = some n → i ≠ .randomFill 0 → Triggering n s → s.env.answers = a :: rest →
    a.fail = false → exec i { s with buf := b, haveReg := h } = exec i s

/-- 10_state.md R27: no state but `mode` of an uninitialised engine can influence a response: whatever `x`, `BUF`, `have`,
`count`, `creator_pid` hold, a command leaves the same response, mode and environment. -/
def Obligations.UninitResidueUnobservable : Prop :=
  ∀ (s s' : State) (i : Instr), s.mode = .uninit → s'.mode = .uninit → s.env = s'.env → s.buf.wf → s'.buf.wf →
    ∃ t t', exec i s = .next t ∧ exec i s' = .next t' ∧ t.seq = t'.seq ∧ t.mode = t'.mode ∧ t.env = t'.env
end

