-- ==== Sys2Proof/Laws/Cipher.lean ====
section
/-! SUPPORT. The cipher core: lengths, which words a block transform writes, and the words `INIT` leaves. -/

namespace Sys2Proof.Machine

@[simp] theorem bytesLe32_length (v : Word) : (bytesLe32 v).length = 4 := rfl

@[simp] theorem blockWords_length (x : CipherState) : (blockWords x).length = 16 := by simp [blockWords]

/-- Four bytes a word. -/
theorem flatMap_bytesLe32_length (ws : List Word) : (ws.flatMap bytesLe32).length = 4 * ws.length := by
  induction ws with
  | nil => rfl
  | cons w ws ih => rw [List.flatMap_cons, List.length_append, ih, bytesLe32_length, List.length_cons]; omega

/-- A block is 64 bytes. -/
@[simp] theorem blockBytes_length (x : CipherState) : (blockBytes x).length = 64 := by
  unfold blockBytes
  rw [flatMap_bytesLe32_length, blockWords_length]

@[simp] theorem blockTransform_fst (x : CipherState) : (blockTransform x).1 = blockBytes x := rfl

@[simp] theorem blockTransform_snd (x : CipherState) : (blockTransform x).2 = counterIncrement x := rfl

/-- The counter step writes no word but 12 and 13. -/
theorem counterIncrement_getElem_of_ne (x : CipherState) {j : Nat} (hj : j < 16) (h₁ : j ≠ 12) (h₂ : j ≠ 13) :
    (counterIncrement x)[j] = x[j] := by
  unfold counterIncrement
  simp only
  split <;> simp [Ne.symm h₁, Ne.symm h₂]

@[simp] theorem generateBlocks_zero (x : CipherState) : generateBlocks 0 x = ([], x) := rfl

theorem generateBlocks_succ (n : Nat) (x : CipherState) : generateBlocks (n + 1) x =
    (blockBytes x ++ (generateBlocks n (counterIncrement x)).1, (generateBlocks n (counterIncrement x)).2) := rfl

/-- `n` whole blocks are `64 n` bytes. -/
@[simp] theorem generateBlocks_length (n : Nat) : ∀ x : CipherState, (generateBlocks n x).1.length = 64 * n := by
  induction n with
  | zero => intro x; rfl
  | succ n ih => intro x; rw [generateBlocks_succ]; simp [ih]; omega

/-- Whole blocks write no word but 12 and 13. -/
theorem generateBlocks_getElem_of_ne (n : Nat) {j : Nat} (hj : j < 16) (h₁ : j ≠ 12) (h₂ : j ≠ 13) :
    ∀ x : CipherState, (generateBlocks n x).2[j] = x[j] := by
  induction n with
  | zero => intro x; rfl
  | succ n ih => intro x; rw [generateBlocks_succ]; simp [ih, counterIncrement_getElem_of_ne x hj h₁ h₂]

/-- The one length the engine asks for is 16 whole blocks (40_cipher_core.md R68). -/
theorem generate_bufCap (x : CipherState) : generate Config.bufCap x = generateBlocks 16 x := rfl

@[simp] theorem generate_bufCap_length (x : CipherState) : (generate Config.bufCap x).1.length = 1024 := by
  rw [generate_bufCap, generateBlocks_length]

/-- `KEY_SETUP` leaves words 12 to 15. -/
theorem keySetup_getElem_of_ge (key : List Byte) (x : CipherState) {j : Nat} (hj : j < 16) (h : 12 ≤ j) :
    (keySetup key x)[j] = x[j] := by
  obtain rfl | rfl | rfl | rfl : j = 12 ∨ j = 13 ∨ j = 14 ∨ j = 15 := by omega
  all_goals rfl

/-- `NONCE_SETUP` leaves words 0 to 11. -/
theorem nonceSetup_getElem_of_lt (nonce : List Byte) (x : CipherState) {j : Nat} (h : j < 12) :
    (nonceSetup nonce x)[j] = x[j] := by
  unfold nonceSetup
  rw [Vector.getElem_set, if_neg (by omega), Vector.getElem_set, if_neg (by omega), Vector.getElem_set,
    if_neg (by omega), Vector.getElem_set, if_neg (by omega)]

/-- All 16 words after `INIT`, none of them read from the state before. -/
theorem initCipher_eq (seed : List Byte) (x : CipherState) : initCipher seed x =
    #v[Config.const0, Config.const1, Config.const2, Config.const3,
      leWordAt (seed.take 32) 0, leWordAt (seed.take 32) 4, leWordAt (seed.take 32) 8, leWordAt (seed.take 32) 12,
      leWordAt (seed.take 32) 16, leWordAt (seed.take 32) 20, leWordAt (seed.take 32) 24, leWordAt (seed.take 32) 28,
      0, 0, leWordAt ((seed.drop 32).take 8) 0, leWordAt ((seed.drop 32).take 8) 4] := rfl

/-- Reading a word inside a prefix. -/
theorem leWordAt_take (bs : List Byte) {n i : Nat} (h : i + 3 < n) : leWordAt (bs.take n) i = leWordAt bs i := by
  simp only [leWordAt, List.getD_eq_getElem?_getD, List.getElem?_take]
  rw [if_pos (by omega), if_pos (by omega), if_pos (by omega), if_pos (by omega)]

/-- Reading a word after a prefix. -/
theorem leWordAt_drop (bs : List Byte) (n i : Nat) : leWordAt (bs.drop n) i = leWordAt bs (n + i) := by
  simp only [leWordAt, List.getD_eq_getElem?_getD, List.getElem?_drop]
  simp only [Nat.add_assoc]

end Sys2Proof.Machine
end

