-- ==== Sys2Proof/Laws/Memory.lean ====
section
/-! SUPPORT. The laws of the output buffer: a read after a write, the canonical form kept, and the byte lists. -/

namespace Sys2Proof.Machine

@[simp] theorem readByte_nil (a : Nat) : Memory.readByte [] a = 0 := rfl

/-- Reading past one listed cell. -/
theorem readByte_cons (c : Host.Cell) (m : Memory) (a : Nat) :
    Memory.readByte (c :: m) a = if c.1 = a then c.2 else m.readByte a := by
  by_cases h : c.1 = a <;> simp [Memory.readByte, h]

/-- Reading from two memories one after the other, where the first does not list the address. -/
theorem readByte_append_of_not_mem {m n : Memory} {a : Nat} (h : ∀ c ∈ m, c.1 ≠ a) :
    Memory.readByte (m ++ n) a = n.readByte a := by
  induction m with
  | nil => rfl
  | cons c m ih =>
    rw [List.cons_append, readByte_cons, if_neg (h c (by simp)), ih fun d hd => h d (by simp [hd])]

/-- Reading from two memories one after the other, where the second does not list the address. -/
theorem readByte_append_of_not_mem_right {m n : Memory} {a : Nat} (h : ∀ c ∈ n, c.1 ≠ a) :
    Memory.readByte (m ++ n) a = m.readByte a := by
  induction m with
  | nil =>
    have := readByte_append_of_not_mem (n := []) h
    simpa using this
  | cons c m ih => rw [List.cons_append, readByte_cons, readByte_cons, ih]

/-- An address that no cell lists reads as the unlisted byte. -/
theorem readByte_of_not_mem {m : Memory} {a : Nat} (h : ∀ c ∈ m, c.1 ≠ a) : m.readByte a = 0 := by
  have := readByte_append_of_not_mem (n := []) h
  simpa using this

/-- Dropping cells that are not at the address read changes nothing. -/
theorem readByte_filter {m : Memory} {a : Nat} {p : Host.Cell → Bool} (h : ∀ b, p (a, b) = true) :
    Memory.readByte (m.filter p) a = m.readByte a := by
  induction m with
  | nil => rfl
  | cons c m ih =>
    rw [List.filter_cons, readByte_cons]
    by_cases hc : c.1 = a
    · have : p c = true := by rw [← hc] at h; exact h c.2
      simp [this, readByte_cons, hc]
    · split <;> simp [readByte_cons, hc, ih]

/-- The addresses of the cells written at `a` upward. -/
theorem mem_cellsFrom {bs : List Byte} : ∀ {a : Nat} {c : Host.Cell}, c ∈ cellsFrom a bs →
    a ≤ c.1 ∧ c.1 < a + bs.length ∧ c.2 ≠ 0 := by
  induction bs with
  | nil => intro a c h; simp [cellsFrom] at h
  | cons b bs ih =>
    intro a c h
    rw [cellsFrom] at h
    split at h
    · obtain ⟨h₁, h₂, h₃⟩ := ih h
      simp only [List.length_cons]
      exact ⟨by omega, by omega, h₃⟩
    · rcases List.mem_cons.1 h with rfl | h
      · simp_all
      · obtain ⟨h₁, h₂, h₃⟩ := ih h
        simp only [List.length_cons]
        exact ⟨by omega, by omega, h₃⟩

/-- The cells written at `a` upward read as the bytes they came from. -/
theorem readByte_cellsFrom {bs : List Byte} : ∀ {a k : Nat}, k < bs.length →
    Memory.readByte (cellsFrom a bs) (a + k) = bs.getD k 0 := by
  induction bs with
  | nil => intro a k h; simp at h
  | cons b bs ih =>
    intro a k h
    rw [cellsFrom]
    cases k with
    | zero =>
      split
      · next hb =>
        rw [readByte_of_not_mem fun c hc => by have := (mem_cellsFrom hc).1; omega]
        simp [hb]
      · simp [readByte_cons]
    | succ k =>
      have hk : a + (k + 1) = a + 1 + k := by omega
      have := ih (a := a + 1) (k := k) (by simpa using h)
      split
      · rw [hk, this]; simp
      · rw [readByte_cons, if_neg (by simp), hk, this]; simp

/-- The cells written at `a` upward stand in rising order. -/
theorem pairwise_cellsFrom {bs : List Byte} : ∀ {a : Nat},
    (cellsFrom a bs).Pairwise (fun c d => c.1 < d.1) := by
  induction bs with
  | nil => intro a; simp [cellsFrom]
  | cons b bs ih =>
    intro a
    rw [cellsFrom]
    split
    · exact ih
    · exact List.pairwise_cons.2 ⟨fun d hd => by have := (mem_cellsFrom hd).1; simp; omega, ih⟩

/-- A read inside the bytes just written gives the byte written there. -/
theorem readByte_writeBytes_inside {m : Memory} {a i : Nat} {bs : List Byte} (h₁ : a ≤ i) (h₂ : i < a + bs.length) :
    (m.writeBytes a bs).readByte i = bs.getD (i - a) 0 := by
  unfold Memory.writeBytes
  rw [List.append_assoc, readByte_append_of_not_mem, readByte_append_of_not_mem_right]
  · have := readByte_cellsFrom (bs := bs) (a := a) (k := i - a) (by omega)
    rwa [Nat.add_sub_cancel' h₁] at this
  · intro c hc
    have := (List.mem_filter.1 hc).2
    simp at this; omega
  · intro c hc
    have := (List.mem_filter.1 hc).2
    simp at this; omega

/-- A read outside the bytes just written gives what it gave before. -/
theorem readByte_writeBytes_outside {m : Memory} {a i : Nat} {bs : List Byte} (h : i < a ∨ a + bs.length ≤ i) :
    (m.writeBytes a bs).readByte i = m.readByte i := by
  unfold Memory.writeBytes
  rcases h with h | h
  · rw [List.append_assoc, readByte_append_of_not_mem_right, readByte_filter (by simpa using h)]
    intro c hc
    rcases List.mem_append.1 hc with hc | hc
    · have := (mem_cellsFrom hc).1; omega
    · have := (List.mem_filter.1 hc).2
      simp at this; omega
  · rw [readByte_append_of_not_mem, readByte_filter (by simpa using h)]
    intro c hc
    rcases List.mem_append.1 hc with hc | hc
    · have := (List.mem_filter.1 hc).2
      simp at this; omega
    · have := (mem_cellsFrom hc).2.1; omega

/-- Every write keeps the canonical form. -/
theorem writeBytes_wf {m : Memory} {a : Nat} {bs : List Byte} (hm : m.wf) (h : a + bs.length ≤ 1024) :
    (m.writeBytes a bs).wf := by
  unfold Memory.writeBytes
  refine ⟨?_, ?_⟩
  · rw [List.pairwise_append, List.pairwise_append]
    refine ⟨⟨hm.1.filter _, pairwise_cellsFrom, ?_⟩, hm.1.filter _, ?_⟩
    · intro c hc d hd
      have h₁ := (List.mem_filter.1 hc).2
      have h₂ := (mem_cellsFrom hd).1
      simp at h₁; omega
    · intro c hc d hd
      have h₂ := (List.mem_filter.1 hd).2
      simp at h₂
      rcases List.mem_append.1 hc with hc | hc
      · have h₁ := (List.mem_filter.1 hc).2
        simp at h₁; omega
      · have h₁ := (mem_cellsFrom hc).2.1; omega
  · intro c hc
    rcases List.mem_append.1 hc with hc | hc
    · rcases List.mem_append.1 hc with hc | hc
      · exact hm.2 c (List.mem_filter.1 hc).1
      · obtain ⟨_, h₂, h₃⟩ := mem_cellsFrom hc
        exact ⟨by show c.1 < 1024; omega, h₃⟩
    · exact hm.2 c (List.mem_filter.1 hc).1

/-- A write of the whole buffer leaves nothing of what was there. -/
theorem writeBytes_whole {m : Memory} {bs : List Byte} (hm : m.wf) (h : bs.length = 1024) :
    m.writeBytes 0 bs = cellsFrom 0 bs := by
  unfold Memory.writeBytes
  have h₁ : m.filter (fun c => c.1 < 0) = [] := by simp
  have h₂ : m.filter (fun c => 0 + bs.length ≤ c.1) = [] := by
    rw [List.filter_eq_nil_iff]
    intro c hc
    have : c.1 < 1024 := (hm.2 c hc).1
    simp; omega
  rw [h₁, h₂]; simp

@[simp] theorem readBytes_length (m : Memory) (a n : Nat) : (m.readBytes a n).length = n := by
  simp [Memory.readBytes]

@[simp] theorem readBytes_getElem (m : Memory) (a n k : Nat) (h : k < (m.readBytes a n).length) :
    (m.readBytes a n)[k] = m.readByte (a + k) := by
  simp [Memory.readBytes]

theorem readBytes_getD (m : Memory) {a n k : Nat} (h : k < n) :
    (m.readBytes a n).getD k 0 = m.readByte (a + k) := by
  rw [List.getD_eq_getElem _ _ (by simpa using h), readBytes_getElem]

/-- Reading the next `n + k` bytes is reading `n` and then `k`. -/
theorem readBytes_add (m : Memory) (a n k : Nat) :
    m.readBytes a (n + k) = m.readBytes a n ++ m.readBytes (a + n) k := by
  simp [Memory.readBytes, ← List.range'_append_1]

/-- Two memories that agree on a range read alike there. -/
theorem readBytes_congr {m m' : Memory} {a n : Nat} (h : ∀ i, a ≤ i → i < a + n → m.readByte i = m'.readByte i) :
    m.readBytes a n = m'.readBytes a n := by
  unfold Memory.readBytes
  refine List.map_congr_left fun i hi => ?_
  simp only [List.mem_range'_1] at hi
  exact h i hi.1 hi.2

@[simp] theorem zeros_length (n : Nat) : (zeros n).length = n := by simp [zeros]

theorem zeros_getD (n k : Nat) : (zeros n).getD k 0 = 0 := by
  simp [zeros]

@[simp] theorem zeros_getElem?_getD (n k : Nat) : (zeros n)[k]?.getD 0#8 = 0#8 := by
  simpa using zeros_getD n k

@[simp] theorem seed_length (a : EntAnswer) : a.seed.length = 40 := by simp [EntAnswer.seed]

@[simp] theorem xorBytes_length (a b : List Byte) : (xorBytes a b).length = min a.length b.length := by
  simp [xorBytes]

/-- The reset buffer has the canonical form. -/
theorem reset_buf_wf : State.reset.buf.wf := ⟨List.Pairwise.nil, nofun⟩

end Sys2Proof.Machine
end

