-- ==== Sys2Proof/Laws/State.lean ====
section
/-! SUPPORT. What each named update does to each field of the state. -/

namespace Sys2Proof.Machine

variable (s : State)

/-- The answers of an environment written out. -/
@[simp] theorem answers_mk (resetPin : Bool) (commands : List CmdWord) (livePid : Word) (pidSamples : List Word)
    (entropy : List EntAnswer) (withdrawn : Nat) (takes : Option Nat) (sampled requests : Nat) (logged : List Byte)
    (received : List OutTransfer) (responses : List Response) :
    (Env.mk resetPin commands livePid pidSamples entropy withdrawn takes sampled requests logged received
      responses).answers = entropy.drop withdrawn := rfl

/-- The answers of an environment by their name: the form `simp` keeps, so `Env.answers` is opened with `unfold`. -/
@[simp] theorem drop_withdrawn (e : Env) : e.entropy.drop e.withdrawn = e.answers := rfl

section sampleLivePid

/-- What one sample of `LIVE_PID` finds. -/
theorem sampleLivePid_fst : s.sampleLivePid.1 = s.env.pidSamples.headD s.env.livePid := by
  unfold State.sampleLivePid; split <;> simp_all

/-- What one sample leaves: only the environment's identity fields move. -/
theorem sampleLivePid_snd : s.sampleLivePid.2 =
    { s with env := { s.env with
        livePid := s.env.pidSamples.headD s.env.livePid
        pidSamples := s.env.pidSamples.tail
        sampled := s.env.sampled + 1 } } := by
  unfold State.sampleLivePid; split <;> simp_all

@[simp] theorem sampleLivePid_x : s.sampleLivePid.2.x = s.x := by simp [sampleLivePid_snd]
@[simp] theorem sampleLivePid_buf : s.sampleLivePid.2.buf = s.buf := by simp [sampleLivePid_snd]
@[simp] theorem sampleLivePid_haveReg : s.sampleLivePid.2.haveReg = s.haveReg := by simp [sampleLivePid_snd]
@[simp] theorem sampleLivePid_count : s.sampleLivePid.2.count = s.count := by simp [sampleLivePid_snd]
@[simp] theorem sampleLivePid_creatorPid : s.sampleLivePid.2.creatorPid = s.creatorPid := by simp [sampleLivePid_snd]
@[simp] theorem sampleLivePid_mode : s.sampleLivePid.2.mode = s.mode := by simp [sampleLivePid_snd]
@[simp] theorem sampleLivePid_seq : s.sampleLivePid.2.seq = s.seq := by simp [sampleLivePid_snd]
@[simp] theorem sampleLivePid_resetPin : s.sampleLivePid.2.env.resetPin = s.env.resetPin := by simp [sampleLivePid_snd]
@[simp] theorem sampleLivePid_commands : s.sampleLivePid.2.env.commands = s.env.commands := by simp [sampleLivePid_snd]
@[simp] theorem sampleLivePid_entropy : s.sampleLivePid.2.env.entropy = s.env.entropy := by simp [sampleLivePid_snd]
@[simp] theorem sampleLivePid_withdrawn : s.sampleLivePid.2.env.withdrawn = s.env.withdrawn := by
  simp [sampleLivePid_snd]
@[simp] theorem sampleLivePid_answers : s.sampleLivePid.2.env.answers = s.env.answers := by simp [sampleLivePid_snd]
@[simp] theorem sampleLivePid_takes : s.sampleLivePid.2.env.takes = s.env.takes := by simp [sampleLivePid_snd]
@[simp] theorem sampleLivePid_sampled : s.sampleLivePid.2.env.sampled = s.env.sampled + 1 := by simp [sampleLivePid_snd]
@[simp] theorem sampleLivePid_requests : s.sampleLivePid.2.env.requests = s.env.requests := by simp [sampleLivePid_snd]
@[simp] theorem sampleLivePid_logged : s.sampleLivePid.2.env.logged = s.env.logged := by simp [sampleLivePid_snd]
@[simp] theorem sampleLivePid_received : s.sampleLivePid.2.env.received = s.env.received := by simp [sampleLivePid_snd]
@[simp] theorem sampleLivePid_responses : s.sampleLivePid.2.env.responses = s.env.responses := by
  simp [sampleLivePid_snd]

end sampleLivePid

section raiseEntReq

@[simp] theorem raiseEntReq_x : s.raiseEntReq.x = s.x := rfl
@[simp] theorem raiseEntReq_buf : s.raiseEntReq.buf = s.buf := rfl
@[simp] theorem raiseEntReq_haveReg : s.raiseEntReq.haveReg = s.haveReg := rfl
@[simp] theorem raiseEntReq_count : s.raiseEntReq.count = s.count := rfl
@[simp] theorem raiseEntReq_creatorPid : s.raiseEntReq.creatorPid = s.creatorPid := rfl
@[simp] theorem raiseEntReq_mode : s.raiseEntReq.mode = s.mode := rfl
@[simp] theorem raiseEntReq_seq : s.raiseEntReq.seq = s.seq := rfl
@[simp] theorem raiseEntReq_env : s.raiseEntReq.env = { s.env with requests := s.env.requests + 1 } := rfl
@[simp] theorem raiseEntReq_answers : s.raiseEntReq.env.answers = s.env.answers := rfl

end raiseEntReq

section takeAnswer

variable (rest : List EntAnswer)

@[simp] theorem takeAnswer_x : (s.takeAnswer rest).x = s.x := rfl
@[simp] theorem takeAnswer_buf : (s.takeAnswer rest).buf = s.buf := rfl
@[simp] theorem takeAnswer_haveReg : (s.takeAnswer rest).haveReg = s.haveReg := rfl
@[simp] theorem takeAnswer_count : (s.takeAnswer rest).count = s.count := rfl
@[simp] theorem takeAnswer_creatorPid : (s.takeAnswer rest).creatorPid = s.creatorPid := rfl
@[simp] theorem takeAnswer_mode : (s.takeAnswer rest).mode = s.mode := rfl
@[simp] theorem takeAnswer_seq : (s.takeAnswer rest).seq = s.seq := rfl
@[simp] theorem takeAnswer_env : (s.takeAnswer rest).env = { s.env with entropy := rest, withdrawn := 0 } := rfl
@[simp] theorem takeAnswer_answers : (s.takeAnswer rest).env.answers = rest := rfl

end takeAnswer

section answers

/-- With no withdrawn request every answer counts. -/
theorem answers_of_withdrawn_zero {s : State} (h : s.env.withdrawn = 0) : s.env.answers = s.env.entropy := by
  rw [Env.answers, h, List.drop_zero]

/-- Taking an answer leaves fewer on the port. -/
theorem length_lt_of_answers {s : State} {a : EntAnswer} {rest : List EntAnswer} (h : s.env.answers = a :: rest) :
    rest.length < s.env.entropy.length := by
  have := congrArg List.length h
  simp only [Env.answers, List.length_drop, List.length_cons] at this
  omega

/-- One more answer, when those to all withdrawn requests have come. -/
theorem queueEntropy_answers {s : State} (a : EntAnswer) (h : s.env.withdrawn ≤ s.env.entropy.length) :
    (s.queueEntropy a).env.answers = s.env.answers ++ [a] := by
  rw [Env.answers, Env.answers, State.queueEntropy, List.drop_append_of_le_length h]

/-- One more answer, when one to a withdrawn request is still to come: it is ignored. -/
theorem queueEntropy_answers_late {s : State} (a : EntAnswer) (h : s.env.entropy.length < s.env.withdrawn) :
    (s.queueEntropy a).env.answers = [] := by
  simp only [Env.answers, State.queueEntropy]
  exact List.drop_eq_nil_of_le (by simp; omega)

end answers

section logError

variable (code : Byte)

@[simp] theorem logError_x : (s.logError code).x = s.x := rfl
@[simp] theorem logError_buf : (s.logError code).buf = s.buf := rfl
@[simp] theorem logError_haveReg : (s.logError code).haveReg = s.haveReg := rfl
@[simp] theorem logError_count : (s.logError code).count = s.count := rfl
@[simp] theorem logError_creatorPid : (s.logError code).creatorPid = s.creatorPid := rfl
@[simp] theorem logError_mode : (s.logError code).mode = s.mode := rfl
@[simp] theorem logError_seq : (s.logError code).seq = s.seq := rfl
@[simp] theorem logError_env : (s.logError code).env = { s.env with logged := s.env.logged ++ [code] } := rfl

end logError

section respond

variable (status : Status) (data : Word) (out : List Byte)

@[simp] theorem respond_x : (s.respond status data out).x = s.x := rfl
@[simp] theorem respond_buf : (s.respond status data out).buf = s.buf := rfl
@[simp] theorem respond_haveReg : (s.respond status data out).haveReg = s.haveReg := rfl
@[simp] theorem respond_count : (s.respond status data out).count = s.count := rfl
@[simp] theorem respond_creatorPid : (s.respond status data out).creatorPid = s.creatorPid := rfl
@[simp] theorem respond_mode : (s.respond status data out).mode = s.mode := rfl
@[simp] theorem respond_seq : (s.respond status data out).seq = .responding out ⟨status, data⟩ := rfl
@[simp] theorem respond_env : (s.respond status data out).env = s.env := rfl

end respond

section takeException

variable (e : EngineException)

/-- The entry on `EntropyUnavailable` in full (60_exceptions.md R92). -/
theorem takeException_entropyUnavailable : s.takeException .entropyUnavailable =
    { s with
      mode := .halted
      seq := .responding [] ⟨.errEntropy, 0⟩
      env := { s.env with logged := s.env.logged ++ [Config.logEntropyUnavailable] } } := rfl

/-- The entry on `IllegalCommand` in full (60_exceptions.md R93). -/
theorem takeException_illegalCommand : s.takeException .illegalCommand =
    { s with seq := .responding [] ⟨.errIllegal, 0⟩ } := rfl

@[simp] theorem takeException_x : (s.takeException e).x = s.x := by cases e <;> rfl
@[simp] theorem takeException_buf : (s.takeException e).buf = s.buf := by cases e <;> rfl
@[simp] theorem takeException_haveReg : (s.takeException e).haveReg = s.haveReg := by cases e <;> rfl
@[simp] theorem takeException_count : (s.takeException e).count = s.count := by cases e <;> rfl
@[simp] theorem takeException_creatorPid : (s.takeException e).creatorPid = s.creatorPid := by cases e <;> rfl
@[simp] theorem takeException_mode_entropy : (s.takeException .entropyUnavailable).mode = .halted := rfl
@[simp] theorem takeException_mode_illegal : (s.takeException .illegalCommand).mode = s.mode := rfl
@[simp] theorem takeException_seq_entropy :
    (s.takeException .entropyUnavailable).seq = .responding [] ⟨.errEntropy, 0⟩ := rfl
@[simp] theorem takeException_seq_illegal :
    (s.takeException .illegalCommand).seq = .responding [] ⟨.errIllegal, 0⟩ := rfl
@[simp] theorem takeException_env_entropy : (s.takeException .entropyUnavailable).env =
    { s.env with logged := s.env.logged ++ [Config.logEntropyUnavailable] } := rfl
@[simp] theorem takeException_env_illegal : (s.takeException .illegalCommand).env = s.env := rfl

end takeException

/-- A halted engine's answer in full (60_exceptions.md R94). -/
theorem answerHalted_eq : s.answerHalted = { s with seq := .responding [] ⟨.errEntropy, 0⟩ } := rfl

@[simp] theorem answerHalted_x : s.answerHalted.x = s.x := rfl
@[simp] theorem answerHalted_buf : s.answerHalted.buf = s.buf := rfl
@[simp] theorem answerHalted_haveReg : s.answerHalted.haveReg = s.haveReg := rfl
@[simp] theorem answerHalted_count : s.answerHalted.count = s.count := rfl
@[simp] theorem answerHalted_creatorPid : s.answerHalted.creatorPid = s.creatorPid := rfl
@[simp] theorem answerHalted_mode : s.answerHalted.mode = s.mode := rfl
@[simp] theorem answerHalted_seq : s.answerHalted.seq = .responding [] ⟨.errEntropy, 0⟩ := rfl
@[simp] theorem answerHalted_env : s.answerHalted.env = s.env := rfl

section accept

variable (rest : List CmdWord)

@[simp] theorem accept_x : (s.accept rest).x = s.x := rfl
@[simp] theorem accept_buf : (s.accept rest).buf = s.buf := rfl
@[simp] theorem accept_haveReg : (s.accept rest).haveReg = s.haveReg := rfl
@[simp] theorem accept_count : (s.accept rest).count = s.count := rfl
@[simp] theorem accept_creatorPid : (s.accept rest).creatorPid = s.creatorPid := rfl
@[simp] theorem accept_mode : (s.accept rest).mode = s.mode := rfl
@[simp] theorem accept_seq : (s.accept rest).seq = s.seq := rfl
@[simp] theorem accept_env : (s.accept rest).env = { s.env with commands := rest } := rfl

end accept

section deliver

@[simp] theorem deliver_x : s.deliver.x = s.x := by unfold State.deliver; grind
@[simp] theorem deliver_buf : s.deliver.buf = s.buf := by unfold State.deliver; grind
@[simp] theorem deliver_haveReg : s.deliver.haveReg = s.haveReg := by unfold State.deliver; grind
@[simp] theorem deliver_count : s.deliver.count = s.count := by unfold State.deliver; grind
@[simp] theorem deliver_creatorPid : s.deliver.creatorPid = s.creatorPid := by unfold State.deliver; grind
@[simp] theorem deliver_mode : s.deliver.mode = s.mode := by unfold State.deliver; grind

@[simp] theorem deliver_resetPin : s.deliver.env.resetPin = s.env.resetPin := by unfold State.deliver; grind
@[simp] theorem deliver_commands : s.deliver.env.commands = s.env.commands := by unfold State.deliver; grind
@[simp] theorem deliver_livePid : s.deliver.env.livePid = s.env.livePid := by unfold State.deliver; grind
@[simp] theorem deliver_pidSamples : s.deliver.env.pidSamples = s.env.pidSamples := by unfold State.deliver; grind
@[simp] theorem deliver_entropy : s.deliver.env.entropy = s.env.entropy := by unfold State.deliver; grind
@[simp] theorem deliver_withdrawn : s.deliver.env.withdrawn = s.env.withdrawn := by unfold State.deliver; grind
@[simp] theorem deliver_answers : s.deliver.env.answers = s.env.answers := by
  unfold Env.answers; simp
@[simp] theorem deliver_sampled : s.deliver.env.sampled = s.env.sampled := by unfold State.deliver; grind
@[simp] theorem deliver_requests : s.deliver.env.requests = s.env.requests := by unfold State.deliver; grind
@[simp] theorem deliver_logged : s.deliver.env.logged = s.env.logged := by unfold State.deliver; grind

@[simp] theorem deliver_of_idle (h : s.seq = .idle) : s.deliver = s := by simp [State.deliver, h]

@[simp] theorem deliver_of_waiting {cmd : Instr} {live : Word} (h : s.seq = .waiting cmd live) : s.deliver = s := by
  simp [State.deliver, h]

/-- A host that never stalls takes everything at once. -/
theorem deliver_of_ready {out : List Byte} {rsp : Response} (h : s.seq = .responding out rsp)
    (ht : s.env.takes = none) : s.deliver =
      { s with
        seq := .idle
        env := { s.env with
          received := s.env.received ++ (transfers out).take out.length
          responses := s.env.responses ++ [rsp] } } := by
  simp [State.deliver, h, ht, bytesTaken]

end deliver

section present

variable (w : CmdWord)

@[simp] theorem present_x : (s.present w).x = s.x := rfl
@[simp] theorem present_buf : (s.present w).buf = s.buf := rfl
@[simp] theorem present_haveReg : (s.present w).haveReg = s.haveReg := rfl
@[simp] theorem present_count : (s.present w).count = s.count := rfl
@[simp] theorem present_creatorPid : (s.present w).creatorPid = s.creatorPid := rfl
@[simp] theorem present_mode : (s.present w).mode = s.mode := rfl
@[simp] theorem present_seq : (s.present w).seq = .idle := rfl
@[simp] theorem present_env :
    (s.present w).env = { s.env with resetPin := false, commands := w :: s.env.commands } := rfl

end present

section applyReset

@[simp] theorem applyReset_x : s.applyReset.x = State.reset.x := rfl
@[simp] theorem applyReset_buf : s.applyReset.buf = [] := rfl
@[simp] theorem applyReset_haveReg : s.applyReset.haveReg = 0 := rfl
@[simp] theorem applyReset_count : s.applyReset.count = 0 := rfl
@[simp] theorem applyReset_creatorPid : s.applyReset.creatorPid = 0 := rfl
@[simp] theorem applyReset_mode : s.applyReset.mode = .uninit := rfl
@[simp] theorem applyReset_seq : s.applyReset.seq = .idle := rfl
@[simp] theorem applyReset_env :
    s.applyReset.env = { s.env with resetPin := false, withdrawn := withdrawnAfterReset s } := rfl

/-- The pending request's answer is ignored, whether it is there already or not. -/
theorem applyReset_answers_of_waiting {s : State} {cmd : Instr} {live : Word} (h : s.seq = .waiting cmd live) :
    s.applyReset.env.answers = s.env.answers.tail := by
  simp only [applyReset_env, withdrawnAfterReset, h, Env.answers, List.tail_drop]

/-- With no request pending the answers stay. -/
theorem applyReset_answers_of_not_waiting {s : State} (h : ∀ cmd live, s.seq ≠ .waiting cmd live) :
    s.applyReset.env.answers = s.env.answers := by
  have : withdrawnAfterReset s = s.env.withdrawn := by
    unfold withdrawnAfterReset
    split
    · next hq => exact absurd hq (h _ _)
    · rfl
  simp [this]

end applyReset

section micro

variable {α β : Type} (k : α → State → Micro β)

@[simp] theorem andThen_done (a : α) : (Micro.done a s).andThen k = k a s := rfl
@[simp] theorem andThen_blocked (live : Word) : (Micro.blocked live s).andThen k = .blocked live s := rfl
@[simp] theorem andThen_raised : (Micro.raised s).andThen k = .raised s := rfl
@[simp] theorem andThen_stopped (f : Fault) : (Micro.stopped f).andThen k = .stopped f := rfl

/-- Running three in a row: how they are grouped does not matter. -/
theorem andThen_assoc {γ : Type} (r : Micro α) (k : α → State → Micro β) (l : β → State → Micro γ) :
    (r.andThen k).andThen l = r.andThen fun a t => (k a t).andThen l := by
  cases r <;> rfl

end micro

end Sys2Proof.Machine
end

