-- ==== Sys2Proof/Laws/Generator.lean ====
section
/-! SUPPORT. What `REKEY`, `RESEED`, `STIR_IF_NEEDED` and `CONSUME` can do, each said once. -/

namespace Sys2Proof.Machine

section rekey

variable (extra : Option (List Byte)) (s : State)

@[simp] theorem rekey_haveReg : (rekey extra s).haveReg = 984 := rfl
@[simp] theorem rekey_count : (rekey extra s).count = s.count := rfl
@[simp] theorem rekey_creatorPid : (rekey extra s).creatorPid = s.creatorPid := rfl
@[simp] theorem rekey_mode : (rekey extra s).mode = s.mode := rfl
@[simp] theorem rekey_seq : (rekey extra s).seq = s.seq := rfl
@[simp] theorem rekey_env : (rekey extra s).env = s.env := rfl

theorem rekey_x : (rekey extra s).x =
    initCipher ((rekeyBuffer extra (generate Config.bufCap s.x).1 s.buf).readBytes 0 40)
      (generate Config.bufCap s.x).2 := rfl

theorem rekey_buf : (rekey extra s).buf =
    (rekeyBuffer extra (generate Config.bufCap s.x).1 s.buf).writeBytes 0 (zeros 40) := rfl

end rekey

/-- The buffer before the wipe, past its first 40 bytes: keystream, with or without `extra`. -/
theorem rekeyBuffer_readByte_of_ge {extra : Option (List Byte)} {ks : List Byte} {buf : Memory} {a : Nat}
    (hk : ks.length = 1024) (h₁ : 40 ≤ a) (h₂ : a < 1024) :
    (rekeyBuffer extra ks buf).readByte a = ks.getD a 0 := by
  have hin : (buf.writeBytes 0 ks).readByte a = ks.getD a 0 := by
    rw [readByte_writeBytes_inside (by omega) (by omega)]; simp
  cases extra with
  | none => exact hin
  | some e =>
    simp only [rekeyBuffer]
    rw [readByte_writeBytes_outside (Or.inr ?_), hin]
    have : (xorBytes ((buf.writeBytes 0 ks).readBytes 0 Config.seedBytes) e).length ≤ 40 := by
      rw [xorBytes_length, readBytes_length]; exact Nat.min_le_left _ _
    omega

/-- The buffer before the wipe with no `extra`: keystream everywhere. -/
theorem rekeyBuffer_none_readByte {ks : List Byte} {buf : Memory} {a : Nat} (hk : ks.length = 1024) (h : a < 1024) :
    (rekeyBuffer none ks buf).readByte a = ks.getD a 0 := by
  simp only [rekeyBuffer]
  rw [readByte_writeBytes_inside (by omega) (by omega)]; simp

/-- The buffer before the wipe in its first 40 bytes, with 40 bytes of `extra`. -/
theorem rekeyBuffer_some_readByte {e ks : List Byte} {buf : Memory} {a : Nat} (hk : ks.length = 1024)
    (he : e.length = 40) (h : a < 40) :
    (rekeyBuffer (some e) ks buf).readByte a = ks.getD a 0 ^^^ e.getD a 0 := by
  have hl : (xorBytes ((buf.writeBytes 0 ks).readBytes 0 40) e).length = 40 := by simp [he]
  simp only [rekeyBuffer]
  rw [readByte_writeBytes_inside (by omega) (by simp [he]; omega)]
  rw [List.getD_eq_getElem _ _ (by rw [hl]; omega)]
  simp only [xorBytes, Nat.sub_zero, List.getElem_zipWith, readBytes_getElem, Nat.zero_add]
  rw [readByte_writeBytes_inside (by omega) (by omega), List.getD_eq_getElem e _ (by omega)]
  simp

/-- After a `REKEY` the key material is wiped. -/
theorem rekey_readByte_of_lt {extra : Option (List Byte)} {s : State} {a : Nat} (h : a < 40) :
    (rekey extra s).buf.readByte a = 0 := by
  rw [rekey_buf, readByte_writeBytes_inside (by omega) (by simp; omega)]; simp

/-- After a `REKEY` the rest of the buffer is keystream of the key before it. -/
theorem rekey_readByte_of_ge {extra : Option (List Byte)} {s : State} {a : Nat} (h₁ : 40 ≤ a) (h₂ : a < 1024) :
    (rekey extra s).buf.readByte a = (generate Config.bufCap s.x).1.getD a 0 := by
  rw [rekey_buf, readByte_writeBytes_outside (by simp; omega), rekeyBuffer_readByte_of_ge (by simp) h₁ h₂]

/-- `REKEY` keeps the buffer's canonical form. -/
theorem rekey_wf {extra : Option (List Byte)} {s : State} (h : s.buf.wf) : (rekey extra s).buf.wf := by
  rw [rekey_buf]
  refine writeBytes_wf ?_ (by simp)
  have hw : (s.buf.writeBytes 0 (generate Config.bufCap s.x).1).wf := writeBytes_wf h (by simp)
  cases extra with
  | none => exact hw
  | some e =>
    simp only [rekeyBuffer]
    refine writeBytes_wf hw ?_
    have : (xorBytes ((s.buf.writeBytes 0 (generate Config.bufCap s.x).1).readBytes 0 Config.seedBytes) e).length
        ≤ 40 := by
      rw [xorBytes_length, readBytes_length]; exact Nat.min_le_left _ _
    omega

/-- What a `REKEY` leaves does not depend on the buffer or on `have` before it (90_conflicts.md C2). -/
theorem rekey_congr {extra : Option (List Byte)} {s t : State} (hs : s.buf.wf) (ht : t.buf.wf) (hx : s.x = t.x)
    (hc : s.count = t.count) (hp : s.creatorPid = t.creatorPid) (hm : s.mode = t.mode) (hq : s.seq = t.seq)
    (he : s.env = t.env) : rekey extra s = rekey extra t := by
  have hb : rekeyBuffer extra (generate Config.bufCap s.x).1 s.buf =
      rekeyBuffer extra (generate Config.bufCap t.x).1 t.buf := by
    rw [hx]
    cases extra <;>
      simp only [rekeyBuffer, writeBytes_whole hs (generate_bufCap_length t.x),
        writeBytes_whole ht (generate_bufCap_length t.x)]
  unfold rekey
  simp only [hb]
  simp only [hx, hc, hp, hm, hq, he]

section reseedFrom

variable (live : Word) (seed : List Byte) (s : State)

@[simp] theorem reseedFrom_haveReg : (reseedFrom live seed s).haveReg = 0 := rfl
@[simp] theorem reseedFrom_count : (reseedFrom live seed s).count = 1600000 := rfl
@[simp] theorem reseedFrom_creatorPid : (reseedFrom live seed s).creatorPid = live := rfl
@[simp] theorem reseedFrom_mode : (reseedFrom live seed s).mode = .seeded := rfl
@[simp] theorem reseedFrom_seq : (reseedFrom live seed s).seq = s.seq := by unfold reseedFrom; split <;> rfl
@[simp] theorem reseedFrom_env : (reseedFrom live seed s).env = s.env := by unfold reseedFrom; split <;> rfl

theorem reseedFrom_x_uninit (h : s.mode = .uninit) : (reseedFrom live seed s).x = initCipher seed s.x := by
  simp [reseedFrom, h]

theorem reseedFrom_buf_uninit (h : s.mode = .uninit) : (reseedFrom live seed s).buf = s.buf := by
  simp [reseedFrom, h]

theorem reseedFrom_x_seeded (h : s.mode ≠ .uninit) : (reseedFrom live seed s).x = (rekey (some seed) s).x := by
  simp [reseedFrom, h]

theorem reseedFrom_buf_seeded (h : s.mode ≠ .uninit) : (reseedFrom live seed s).buf = (rekey (some seed) s).buf := by
  simp [reseedFrom, h]

end reseedFrom

section awaitEntropy

variable (live : Word) (s : State)

/-- No answer: blocked, with nothing changed. -/
theorem awaitEntropy_nil (h : s.env.answers = []) : awaitEntropy live s = .blocked live s := by
  simp [awaitEntropy, h]

/-- A failing answer: it is used up and the exception is taken. -/
theorem awaitEntropy_fail {a : EntAnswer} {rest : List EntAnswer} (h : s.env.answers = a :: rest) (hf : a.fail = true) :
    awaitEntropy live s = .raised
      ((s.takeAnswer rest).takeException .entropyUnavailable) := by
  simp [awaitEntropy, h, hf]

/-- An answer with 40 bytes: it is used up and keys the engine. -/
theorem awaitEntropy_ok {a : EntAnswer} {rest : List EntAnswer} (h : s.env.answers = a :: rest) (hf : a.fail = false) :
    awaitEntropy live s = .done ()
      (reseedFrom live a.seed (s.takeAnswer rest)) := by
  simp [awaitEntropy, h, hf]

end awaitEntropy

/-- The trigger test in the spec's three conditions (41_generator_policy.md R74). -/
theorem reseedTriggered_iff (n live : Word) (s : State) :
    reseedTriggered n live s = true ↔ s.mode = .uninit ∨ s.count ≤ n ∨ s.creatorPid ≠ live := by
  simp [reseedTriggered, or_assoc]

/-- `STIR_IF_NEEDED` without a trigger. -/
theorem stirIfNeeded_of_not_triggered {n : Word} {s : State}
    (h : reseedTriggered n s.sampleLivePid.1 s.sampleLivePid.2 = false) :
    stirIfNeeded n s = .done () { s.sampleLivePid.2 with count := s.sampleLivePid.2.count - n } := by
  simp only [stirIfNeeded, h]
  rfl

/-- `STIR_IF_NEEDED` with a trigger. -/
theorem stirIfNeeded_of_triggered {n : Word} {s : State}
    (h : reseedTriggered n s.sampleLivePid.1 s.sampleLivePid.2 = true) :
    stirIfNeeded n s = awaitEntropy s.sampleLivePid.1 s.sampleLivePid.2.raiseEntReq := by
  simp [stirIfNeeded, h]

section consume

/-- The effective address inside `BUF`. -/
theorem consumeAddress_of_le {h : BitVec 11} (hh : h.toNat ≤ 1024) : consumeAddress h = 1024 - h.toNat := by
  unfold consumeAddress
  rw [BitVec.toNat_sub_of_le]
  · rfl
  · rw [BitVec.le_def]; exact hh

/-- Outside `BUF` the effective address is past its end. -/
theorem consumeAddress_of_gt {h : BitVec 11} (hh : 1024 < h.toNat) : 1024 < consumeAddress h := by
  unfold consumeAddress
  rw [BitVec.toNat_sub]
  have := h.isLt
  simp
  omega

/-- `CONSUME(m)` with `m <= have`, in a state whose unread bytes lie in `BUF` (42_public_api.md R80). -/
theorem consume_of_le {m : Nat} {s : State} (hm : m ≤ s.haveReg.toNat) (hh : s.haveReg.toNat ≤ 1024) :
    consume m s = .done (s.buf.readBytes (1024 - s.haveReg.toNat) m)
      { s with
        buf := s.buf.writeBytes (1024 - s.haveReg.toNat) (zeros m)
        haveReg := s.haveReg - BitVec.ofNat 11 m } := by
  have h₁ : 1024 - s.haveReg.toNat + m ≤ Config.bufCap := by show _ ≤ 1024; omega
  simp [consume, consumeAddress_of_le hh, h₁]

/-- `have` after `CONSUME(m)`. -/
theorem consume_haveReg {m : Nat} {h : BitVec 11} (hm : m ≤ h.toNat) : (h - BitVec.ofNat 11 m).toNat = h.toNat - m := by
  have hlt := h.isLt
  have e : (BitVec.ofNat 11 m).toNat = m := by simp; omega
  rw [BitVec.toNat_sub_of_le (by rw [BitVec.le_def, e]; exact hm), e]

end consume

end Sys2Proof.Machine
end

