-- ==== Sys2Proof/Laws/Commands.lean ====
section
/-! SUPPORT. What the commands' parts can do: every way a micro-operation ends, one lemma for each of `STIR_IF_NEEDED`,
`CONSUME`, `NEXT_U32`, the fill loop and the sampler's loop. -/

namespace Sys2Proof.Machine

variable {α β : Type}

/-- How a micro-operation ends, each way with what then holds; it does not stop the model. Irreducible, so that a goal about
it is only ever taken apart by the lemmas below. -/
@[irreducible] def Micro.Meets (D : α → State → Prop) (B : Word → State → Prop) (R : State → Prop) : Micro α → Prop
  | .done a s => D a s
  | .blocked live s => B live s
  | .raised s => R s
  | .stopped _ => False

section meets

variable {D : α → State → Prop} {D' : β → State → Prop} {B : Word → State → Prop} {R : State → Prop}

@[simp] theorem meets_done (a : α) (s : State) : (Micro.done a s).Meets D B R ↔ D a s := by rw [Micro.Meets]
@[simp] theorem meets_blocked (live : Word) (s : State) : (Micro.blocked live s : Micro α).Meets D B R ↔ B live s := by
  rw [Micro.Meets]
@[simp] theorem meets_raised (s : State) : (Micro.raised s : Micro α).Meets D B R ↔ R s := by rw [Micro.Meets]
@[simp] theorem meets_stopped (f : Fault) : (Micro.stopped f : Micro α).Meets D B R ↔ False := by rw [Micro.Meets]

/-- One micro-operation after another. -/
theorem meets_andThen {r : Micro α} {k : α → State → Micro β} (hr : r.Meets D B R)
    (hk : ∀ a s, D a s → (k a s).Meets D' B R) : (r.andThen k).Meets D' B R := by
  cases r with
  | done a s => exact hk a s ((meets_done a s).1 hr)
  | blocked live s => simpa using hr
  | raised s => simpa using hr
  | stopped f => simp at hr

/-- Weaker conditions. -/
theorem meets_mono {D₂ : α → State → Prop} {B₂ : Word → State → Prop} {R₂ : State → Prop} {r : Micro α}
    (hr : r.Meets D B R) (hD : ∀ a s, D a s → D₂ a s) (hB : ∀ l s, B l s → B₂ l s) (hR : ∀ s, R s → R₂ s) :
    r.Meets D₂ B₂ R₂ := by
  cases r with
  | done a s => exact (meets_done a s).2 (hD a s ((meets_done a s).1 hr))
  | blocked live s => exact (meets_blocked live s).2 (hB live s ((meets_blocked live s).1 hr))
  | raised s => exact (meets_raised s).2 (hR s ((meets_raised s).1 hr))
  | stopped f => simp at hr

/-- What a command's end is, given how its run ends. -/
theorem finish_of_meets {cmd : Instr} {D : Reply → State → Prop} {r : Micro Reply} (h : r.Meets D B R) :
    (∃ a s, D a s ∧ finish cmd r = .next (s.respond .ok a.data a.out)) ∨
      (∃ live s, B live s ∧ finish cmd r = .next { s with seq := .waiting cmd live }) ∨
      (∃ s, R s ∧ finish cmd r = .next s) := by
  cases r with
  | done a s => exact .inl ⟨a, s, (meets_done a s).1 h, rfl⟩
  | blocked live s => exact .inr (.inl ⟨live, s, (meets_blocked live s).1 h, rfl⟩)
  | raised s => exact .inr (.inr ⟨s, (meets_raised s).1 h, rfl⟩)
  | stopped f => simp at h

end meets

/-- The four ways a `STIR_IF_NEEDED` ends (41_generator_policy.md R74 to R78). -/
theorem stirIfNeeded_cases (n : Word) (s : State) :
    (reseedTriggered n s.sampleLivePid.1 s.sampleLivePid.2 = false ∧
      stirIfNeeded n s = .done () { s.sampleLivePid.2 with count := s.count - n }) ∨
    (reseedTriggered n s.sampleLivePid.1 s.sampleLivePid.2 = true ∧ s.env.answers = [] ∧
      stirIfNeeded n s = .blocked s.sampleLivePid.1 s.sampleLivePid.2.raiseEntReq) ∨
    (reseedTriggered n s.sampleLivePid.1 s.sampleLivePid.2 = true ∧ ∃ a rest, s.env.answers = a :: rest ∧
      a.fail = true ∧ stirIfNeeded n s = .raised
        ((s.sampleLivePid.2.raiseEntReq.takeAnswer rest).takeException .entropyUnavailable)) ∨
    (reseedTriggered n s.sampleLivePid.1 s.sampleLivePid.2 = true ∧ ∃ a rest, s.env.answers = a :: rest ∧
      a.fail = false ∧ stirIfNeeded n s = .done () (reseedFrom s.sampleLivePid.1 a.seed
        (s.sampleLivePid.2.raiseEntReq.takeAnswer rest))) := by
  cases h : reseedTriggered n s.sampleLivePid.1 s.sampleLivePid.2
  · exact .inl ⟨rfl, by rw [stirIfNeeded_of_not_triggered h, sampleLivePid_count]⟩
  · refine .inr ?_
    have he : s.sampleLivePid.2.raiseEntReq.env.answers = s.env.answers := by simp
    rw [stirIfNeeded_of_triggered h]
    cases hs : s.env.answers with
    | nil => exact .inl ⟨rfl, rfl, awaitEntropy_nil _ _ (he.trans hs)⟩
    | cons a rest =>
      refine .inr ?_
      cases hf : a.fail
      · exact .inr ⟨rfl, a, rest, rfl, hf, awaitEntropy_ok _ _ (he.trans hs) hf⟩
      · exact .inl ⟨rfl, a, rest, rfl, hf, awaitEntropy_fail _ _ (he.trans hs) hf⟩

/-- The state after `CONSUME(m)` with `m <= have`. -/
def consumed (m : Nat) (s : State) : State :=
  { s with
    buf := s.buf.writeBytes (1024 - s.haveReg.toNat) (zeros m)
    haveReg := s.haveReg - BitVec.ofNat 11 m }

section consumed

variable (m : Nat) (s : State)

@[simp] theorem consumed_x : (consumed m s).x = s.x := rfl
@[simp] theorem consumed_count : (consumed m s).count = s.count := rfl
@[simp] theorem consumed_creatorPid : (consumed m s).creatorPid = s.creatorPid := rfl
@[simp] theorem consumed_mode : (consumed m s).mode = s.mode := rfl
@[simp] theorem consumed_seq : (consumed m s).seq = s.seq := rfl
@[simp] theorem consumed_env : (consumed m s).env = s.env := rfl

theorem consumed_haveReg_toNat {m : Nat} {s : State} (h : m ≤ s.haveReg.toNat) :
    (consumed m s).haveReg.toNat = s.haveReg.toNat - m := consume_haveReg h

/-- What a consumed byte reads as afterwards. -/
theorem consumed_readByte_inside {m : Nat} {s : State} {a : Nat} (h₁ : 1024 - s.haveReg.toNat ≤ a)
    (h₂ : a < 1024 - s.haveReg.toNat + m) : (consumed m s).buf.readByte a = 0 := by
  simp only [consumed]
  rw [readByte_writeBytes_inside h₁ (by simpa using h₂), zeros_getD]

/-- What any other byte reads as afterwards. -/
theorem consumed_readByte_outside {m : Nat} {s : State} {a : Nat}
    (h : a < 1024 - s.haveReg.toNat ∨ 1024 - s.haveReg.toNat + m ≤ a) :
    (consumed m s).buf.readByte a = s.buf.readByte a := by
  simp only [consumed]
  rw [readByte_writeBytes_outside (by simpa using h)]

theorem consumed_wf {m : Nat} {s : State} (hw : s.buf.wf) (hm : m ≤ s.haveReg.toNat)
    (hh : s.haveReg.toNat ≤ 1024) : (consumed m s).buf.wf := writeBytes_wf hw (by simp; omega)

end consumed

/-- `CONSUME(m)` with `m <= have` inside the buffer, by its bytes and its state. -/
theorem consume_eq_consumed {m : Nat} {s : State} (hm : m ≤ s.haveReg.toNat) (hh : s.haveReg.toNat ≤ 1024) :
    consume m s = .done (s.buf.readBytes (1024 - s.haveReg.toNat) m) (consumed m s) := consume_of_le hm hh

/-- The state in which a draw consumes its four bytes: rekeyed first when fewer than four are unread. -/
def readyToDraw (s : State) : State := if s.haveReg < 4 then rekey none s else s

section readyToDraw

variable (s : State)

@[simp] theorem readyToDraw_count : (readyToDraw s).count = s.count := by unfold readyToDraw; split <;> rfl
@[simp] theorem readyToDraw_creatorPid : (readyToDraw s).creatorPid = s.creatorPid := by
  unfold readyToDraw; split <;> rfl
@[simp] theorem readyToDraw_mode : (readyToDraw s).mode = s.mode := by unfold readyToDraw; split <;> rfl
@[simp] theorem readyToDraw_seq : (readyToDraw s).seq = s.seq := by unfold readyToDraw; split <;> rfl
@[simp] theorem readyToDraw_env : (readyToDraw s).env = s.env := by unfold readyToDraw; split <;> rfl

theorem readyToDraw_haveReg_ge : 4 ≤ (readyToDraw s).haveReg.toNat := by
  unfold readyToDraw
  split
  · rw [rekey_haveReg]; decide
  · next h => rw [BitVec.lt_def] at h; simpa using h

theorem readyToDraw_haveReg_le {n : Nat} (h₀ : 984 ≤ n) (h : s.haveReg.toNat ≤ n) :
    (readyToDraw s).haveReg.toNat ≤ n := by
  unfold readyToDraw
  split
  · exact h₀
  · exact h

end readyToDraw

/-- A draw after its `STIR_IF_NEEDED` always gives a word (42_public_api.md R81). -/
theorem drawWord_eq {s : State} (hh : s.haveReg.toNat ≤ 1024) : drawWord s = .done
    (leWordAt ((readyToDraw s).buf.readBytes (1024 - (readyToDraw s).haveReg.toNat) 4) 0)
    (consumed 4 (readyToDraw s)) := by
  have := consume_eq_consumed (readyToDraw_haveReg_ge s) (readyToDraw_haveReg_le s (by decide) hh)
  unfold drawWord
  simp only
  change (consume 4 (readyToDraw s)).andThen _ = _
  rw [this]; rfl

/-- `STIR_IF_NEEDED` by how it ends, with all that a bound on the draws needs. -/
theorem stirIfNeeded_drawBound {s t : State} {u : Unit} (h : stirIfNeeded 4 s = .done u t) :
    drawBound t < drawBound s := by
  rcases stirIfNeeded_cases 4 s with ⟨ht, he⟩ | ⟨_, _, he⟩ | ⟨_, a, rest, _, _, he⟩ | ⟨_, a, rest, hr, _, he⟩
  · rw [h] at he
    obtain ⟨_, rfl⟩ := Micro.done.inj he
    have hc : ¬ s.count ≤ 4 := by
      intro hc
      have : reseedTriggered 4 s.sampleLivePid.1 s.sampleLivePid.2 = true := by
        rw [reseedTriggered_iff]; exact .inr (.inl (by simpa using hc))
      rw [this] at ht; simp at ht
    rw [BitVec.le_def] at hc
    have h4 : (4 : Word).toNat = 4 := rfl
    have hs : (s.count - 4).toNat = s.count.toNat - 4 := by
      rw [BitVec.toNat_sub_of_le (by rw [BitVec.le_def]; omega), h4]
    simp only [drawBound, sampleLivePid_answers, hs]
    omega
  · rw [h] at he; exact absurd he (by simp)
  · rw [h] at he; exact absurd he (by simp)
  · rw [h] at he
    obtain ⟨_, rfl⟩ := Micro.done.inj he
    simp only [drawBound, reseedFrom_count, reseedFrom_env, takeAnswer_answers, hr, List.length_cons]
    have e : (1600000 : Word).toNat = 1600000 := rfl
    rw [e]
    omega

/-- Every completed draw lowers the bound on the draws to come, so the sampler's loop cannot use its bound up. -/
theorem nextU32_drawBound {s t : State} {v : Word} (h : nextU32 s = .done v t) : drawBound t < drawBound s := by
  unfold nextU32 at h
  cases hs : stirIfNeeded 4 s with
  | done u s₁ =>
    rw [hs, andThen_done] at h
    have h₁ := stirIfNeeded_drawBound hs
    have h₂ : drawBound t = drawBound s₁ := by
      by_cases hh : (readyToDraw s₁).haveReg.toNat ≤ 1024
      · have he := consume_eq_consumed (readyToDraw_haveReg_ge s₁) hh
        unfold drawWord at h
        simp only at h
        change (consume 4 (readyToDraw s₁)).andThen _ = _ at h
        rw [he, andThen_done] at h
        obtain ⟨_, rfl⟩ := Micro.done.inj h
        simp [drawBound]
      · unfold drawWord at h
        simp only at h
        change (consume 4 (readyToDraw s₁)).andThen _ = _ at h
        have : consume 4 (readyToDraw s₁) = .stopped .bufferRange := by
          have := consumeAddress_of_gt (Nat.lt_of_not_le hh)
          have hn : ¬ consumeAddress (readyToDraw s₁).haveReg + 4 ≤ Config.bufCap := by
            show ¬ _ ≤ 1024; omega
          simp [consume, hn]
        rw [this] at h
        simp at h
    omega
  | blocked l s₁ => rw [hs] at h; simp at h
  | raised s₁ => rw [hs] at h; simp at h
  | stopped f => rw [hs] at h; simp at h

/-- Any bound on the draws that is large enough gives the same run. -/
theorem uniformLoop_of_le (bound : Word) : ∀ (n : Nat) (s : State), drawBound s ≤ n →
    uniformLoop n bound s = uniformLoop (drawBound s) bound s := by
  intro n
  induction n using Nat.strong_induction_on with
  | _ n ih =>
    intro s hn
    have hpos : ∃ k, drawBound s = k + 1 := ⟨drawBound s - 1, by unfold drawBound; omega⟩
    obtain ⟨k, hk⟩ := hpos
    obtain ⟨m, rfl⟩ : ∃ m, n = m + 1 := ⟨n - 1, by omega⟩
    rw [hk, uniformLoop, uniformLoop]
    cases hd : nextU32 s with
    | done v t =>
      have hlt := nextU32_drawBound hd
      simp only [andThen_done, judge]
      split
      · rfl
      · rw [ih m (by omega) t (by omega)]
        by_cases hkm : k = m
        · rw [hkm, ih m (by omega) t (by omega)]
        · rw [ih k (by omega) t (by omega)]
    | blocked l t => rfl
    | raised t => rfl
    | stopped f => rfl

/-- One turn of the sampler's loop with the bound of the state it is in (42_public_api.md R84). -/
theorem uniformLoop_unfold (bound : Word) (s : State) : uniformLoop (drawBound s) bound s =
    (nextU32 s).andThen (judge bound fun t => uniformLoop (drawBound t) bound t) := by
  obtain ⟨k, hk⟩ : ∃ k, drawBound s = k + 1 := ⟨drawBound s - 1, by unfold drawBound; omega⟩
  rw [hk, uniformLoop]
  cases hd : nextU32 s with
  | done v t =>
    have hlt := nextU32_drawBound hd
    simp only [andThen_done, judge]
    rw [uniformLoop_of_le bound k t (by omega)]
  | blocked l t => rfl
  | raised t => rfl
  | stopped f => rfl

/-- What every draw keeps, the sampler keeps; an accepted draw answers with a number below the bound and no output
byte (42_public_api.md R84, R86). -/
theorem uniformLoop_meets {P : State → Prop} {B : Word → State → Prop} {R : State → Prop} {bound : Word}
    (hb : bound ≠ 0) (hdraw : ∀ s, P s → (nextU32 s).Meets (fun _ t => P t) B R) :
    ∀ (n : Nat) (s : State), drawBound s ≤ n → P s →
      (uniformLoop n bound s).Meets (fun a t => P t ∧ a.out = [] ∧ a.data < bound) B R := by
  intro n
  induction n with
  | zero => intro s hn; unfold drawBound at hn; omega
  | succ n ih =>
    intro s hn hP
    have hd := hdraw s hP
    rw [uniformLoop]
    cases he : nextU32 s with
    | done v t =>
      rw [he, meets_done] at hd
      have hlt := nextU32_drawBound he
      simp only [andThen_done, judge]
      split
      · rw [meets_done]
        exact ⟨hd, rfl, BitVec.umod_lt _ (by rw [BitVec.lt_def]; exact Nat.pos_of_ne_zero fun h => hb (BitVec.eq_of_toNat_eq (by simpa using h)))⟩
      · exact ih t (by omega) hd
    | blocked l t => rw [he] at hd; simpa using hd
    | raised t => rw [he] at hd; simpa using hd
    | stopped f => rw [he] at hd; simp at hd

/-- The fill loop always completes, with exactly the bytes asked for, and keeps what `REKEY` and `CONSUME` keep
(42_public_api.md R82). -/
theorem fillLoop_done {P : State → Prop} (hrekey : ∀ s, P s → P (rekey none s))
    (hconsume : ∀ s m, m ≤ s.haveReg.toNat → s.haveReg.toNat ≤ 1024 → P s → P (consumed m s)) :
    ∀ (fuel remaining : Nat) (s : State), remaining + 2 ≤ fuel ∨ (remaining + 1 ≤ fuel ∧ 0 < s.haveReg.toNat) ∨
        (remaining = 0 ∧ 0 < fuel) → s.haveReg.toNat ≤ 1024 → P s →
      ∃ out t, fillLoop fuel remaining s = .done out t ∧ out.length = remaining ∧ P t ∧ t.haveReg.toNat ≤ 1024 := by
  intro fuel
  induction fuel with
  | zero => intro remaining s h; omega
  | succ fuel ih =>
    intro remaining s hf hh hP
    rw [fillLoop]
    by_cases h0 : remaining = 0
    · rw [if_pos h0]; exact ⟨[], s, rfl, h0.symm, hP, hh⟩
    · rw [if_neg h0]
      simp only
      by_cases hpos : 0 < s.haveReg
      · rw [if_pos hpos]
        have hpos' : 0 < s.haveReg.toNat := by rw [BitVec.lt_def] at hpos; simpa using hpos
        have hm : min remaining s.haveReg.toNat ≤ s.haveReg.toNat := Nat.min_le_right _ _
        have hm0 : 0 < min remaining s.haveReg.toNat := by omega
        rw [consume_eq_consumed hm hh, andThen_done, readBytes_length]
        have hc := hconsume s _ hm hh hP
        have hr := consumed_haveReg_toNat hm
        split
        · next hz =>
          obtain ⟨out, t, he, hl, hPt, hht⟩ := ih (remaining - min remaining s.haveReg.toNat)
            (rekey none (consumed (min remaining s.haveReg.toNat) s)) (by simp; omega) (by simp) (hrekey _ hc)
          rw [he]
          exact ⟨_, t, rfl, by simp only [List.length_append, readBytes_length, hl]; omega, hPt, hht⟩
        · next hz =>
          have : remaining - min remaining s.haveReg.toNat = 0 ∨
              0 < (consumed (min remaining s.haveReg.toNat) s).haveReg.toNat := by
            by_contra hcon
            have hn : (consumed (min remaining s.haveReg.toNat) s).haveReg = 0 := by
              apply BitVec.eq_of_toNat_eq; simp; omega
            exact hz ⟨hn, by omega⟩
          obtain ⟨out, t, he, hl, hPt, hht⟩ := ih (remaining - min remaining s.haveReg.toNat)
            (consumed (min remaining s.haveReg.toNat) s) (by omega) (by omega) hc
          rw [he]
          exact ⟨_, t, rfl, by simp only [List.length_append, readBytes_length, hl]; omega, hPt, hht⟩
      · rw [if_neg hpos]
        have hz : s.haveReg = 0 := by
          apply BitVec.eq_of_toNat_eq
          rw [BitVec.lt_def] at hpos
          simp at hpos ⊢; omega
        have hz' : s.haveReg.toNat = 0 := by simp [hz]
        simp only [andThen_done, List.length_nil, Nat.sub_zero, List.nil_append]
        rw [if_pos ⟨hz, by omega⟩]
        obtain ⟨out, t, he, hl, hPt, hht⟩ := ih remaining (rekey none s) (by simp; omega) (by simp) (hrekey _ hP)
        rw [he]
        exact ⟨out, t, rfl, hl, hPt, hht⟩

end Sys2Proof.Machine
end

