-- ==== Sys2Proof/Laws/PerInstr.lean ====
section
/-! SUPPORT. Statements for all instructions, one lemma a constructor. -/

namespace Sys2Proof.Laws.EncodesLegalWord

/-- The command word of a command is legal and carries the command's opcode (30_encoding.md R46, R48). -/
def Statement (i : Instr) : Prop :=
  (encode i).wellFormed = true ∧
    (encode i).op = match i with
      | .randomU32 => 0x01
      | .randomFill _ => 0x02
      | .randomUniform _ => 0x03

/-- The `OP` of an assembled word. -/
theorem op_assemble (op : Byte) (arg : Word) : (assemble op arg).op = op := by
  apply BitVec.eq_of_getLsbD_eq
  intro i hi
  have h : (assemble op arg).getLsbD (32 + i) = op.getLsbD i :=
    (BitVec.getLsbD_append (x := op) (y := arg)).trans (by simp)
  simp [CmdWord.op, h, hi]

/-- The `ARG` of an assembled word. -/
theorem arg_assemble (op : Byte) (arg : Word) : (assemble op arg).arg = arg := by
  apply BitVec.eq_of_getLsbD_eq
  intro i hi
  have h : (assemble op arg).getLsbD i = arg.getLsbD i :=
    (BitVec.getLsbD_append (x := op) (y := arg)).trans (by simp [hi])
  simp [CmdWord.arg, h, hi]

/-- The opcode bits of an assembled word under the table's mask. -/
theorem mask_assemble (op : Byte) (arg : Word) : assemble op arg &&& 0xFF00000000 = assemble op 0 := by
  have h : (0xFF00000000 : CmdWord) = BitVec.allOnes 8 ++ (0 : Word) := by decide
  have e := BitVec.and_append (x₁ := op) (x₂ := BitVec.allOnes 8) (y₁ := arg) (y₂ := (0 : Word))
  rw [BitVec.and_allOnes] at e
  rw [h]
  unfold assemble
  have z : arg &&& 0 = 0 := by simp
  rw [z] at e
  exact e

theorem randomU32 : Statement .randomU32 := by
  refine ⟨?_, op_assemble _ _⟩
  decide

theorem randomFill (len : Word) : Statement (.randomFill len) := by
  refine ⟨?_, op_assemble _ _⟩
  simp only [CmdWord.wellFormed, opcodeRows, encode, List.any_cons, mask_assemble]
  rfl

theorem randomUniform (bound : Word) : Statement (.randomUniform bound) := by
  refine ⟨?_, op_assemble _ _⟩
  simp only [CmdWord.wellFormed, opcodeRows, encode, List.any_cons, mask_assemble]
  rfl

end Sys2Proof.Laws.EncodesLegalWord
end

