-- ==== Sys2Proof/Laws/Step.lean ====
section
/-! SUPPORT. What one step can do, said once. -/

namespace Sys2Proof.Machine

/-- What an outcome becomes when the host takes what it will. -/
@[simp] theorem deliverOutcome_next (s : State) : deliverOutcome (.next s) = .next s.deliver := rfl

/-- Dispatch in a halted engine (60_exceptions.md R94). -/
theorem dispatch_halted {w : CmdWord} {s : State} (h : s.mode = .halted) : dispatch w s = .next s.answerHalted := by
  simp [dispatch, h]

/-- Dispatch of an illegal word (60_exceptions.md R93). -/
theorem dispatch_illegal {w : CmdWord} {s : State} {e : DecodeError} (h : s.mode ≠ .halted) (hw : decode w = .error e) :
    dispatch w s = .next (s.takeException .illegalCommand) := by
  simp [dispatch, h, hw]

/-- Dispatch of a legal word is the run of its command, in every mode: each meaning answers `ERR_ENTROPY` itself in a
halted engine. -/
theorem dispatch_legal {w : CmdWord} {s : State} {i : Instr} (hw : decode w = .ok i) : dispatch w s = exec i s := by
  by_cases h : s.mode = .halted
  · rw [dispatch_halted h]
    cases i <;> simp [exec, execRandomU32, execRandomFill, execRandomUniform, runUnlessHalted, h]
  · simp [dispatch, h, hw]

/-- The five things a step can be. -/
theorem step_cases (s : State) :
    (s.env.resetPin = true ∧ step s = .next s.applyReset) ∨
    (s.env.resetPin = false ∧ (∃ out rsp, s.seq = .responding out rsp) ∧ step s = .next s.deliver) ∨
    (s.env.resetPin = false ∧ ∃ cmd live, s.seq = .waiting cmd live ∧
      step s = deliverOutcome (resume cmd live s)) ∨
    (s.env.resetPin = false ∧ s.seq = .idle ∧ s.env.commands = [] ∧ step s = .next s) ∨
    (s.env.resetPin = false ∧ s.seq = .idle ∧ ∃ w rest, s.env.commands = w :: rest ∧
      step s = deliverOutcome (dispatch w (s.accept rest))) := by
  unfold step
  cases hr : s.env.resetPin
  · simp only [Bool.false_eq_true, if_false]
    cases hq : s.seq with
    | responding out rsp => simp
    | waiting cmd live => simp
    | idle =>
      cases hc : s.env.commands with
      | nil => simp
      | cons w rest => simp
  · simp

/-- What a command leaves when it is not halted, by how its run ends. -/
theorem runUnlessHalted_of_ne {cmd : Instr} {s : State} (h : s.mode ≠ .halted) (r : Micro Reply) :
    runUnlessHalted cmd s r = finish cmd r := by simp [runUnlessHalted, h]

/-- A halted engine answers every command the same way. -/
theorem exec_halted {i : Instr} {s : State} (h : s.mode = .halted) : exec i s = .next s.answerHalted := by
  cases i <;> simp [exec, execRandomU32, execRandomFill, execRandomUniform, runUnlessHalted, h]

section tailOf

variable (s : State)

/-- What is left of each command after its policy check. -/
@[simp] theorem tailOf_randomU32 : tailOf .randomU32 s = u32Tail s := rfl
@[simp] theorem tailOf_randomFill (len : Word) : tailOf (.randomFill len) s = fillTail len s := rfl
@[simp] theorem tailOf_randomUniform (bound : Word) : tailOf (.randomUniform bound) s = uniformTail bound s := rfl

end tailOf

end Sys2Proof.Machine
end

