-- ==== Sys2Proof/Tests/Slice0.lean ====
section
/-! SUPPORT. The model's own tests, with the expected results of 95_test_vectors.md, and for every statement with hypotheses
a concrete case that meets them. -/

namespace Sys2Proof.Tests

open Sys2Proof Sys2Proof.Machine

/-! ### Words: well-formedness and decoding -/

/-- One ill-formed word below the three opcodes, one above, one at the top, one with only bit 39 more than `RANDOM_U32`. -/
theorem test_wellFormed_refuses :
    CmdWord.wellFormed 0x0000000000 = false ∧ CmdWord.wellFormed 0x0400000000 = false ∧
    CmdWord.wellFormed 0xffffffffff = false ∧ CmdWord.wellFormed 0x8100000000 = false := by decide

theorem test_wellFormed_admits :
    CmdWord.wellFormed 0x01deadbeef = true ∧ CmdWord.wellFormed 0x02ffffffff = true ∧
    CmdWord.wellFormed 0x0300000000 = true := by decide

/-- `OP` = 00000001, then an `ARG` that is ignored (V-ENC). -/
theorem test_decode_randomU32 :
    decode 0b00000001_00000000000000000000000000000000 = .ok .randomU32 ∧
    decode 0b00000001_11011110101011011011111011101111 = .ok .randomU32 := ⟨rfl, rfl⟩

/-- `OP` = 00000010, `ARG` = `len`, its top bit and its low bits in place (V-ENC; R45). -/
theorem test_decode_randomFill :
    decode 0b00000010_00000000000000000000000000010000 = .ok (.randomFill 16) ∧
    decode 0b00000010_10000000000000000000001111010100 = .ok (.randomFill 0x800003d4) := ⟨rfl, rfl⟩

/-- `OP` = 00000011, `ARG` = `bound` (V-ENC). -/
theorem test_decode_randomUniform :
    decode 0b00000011_00000000000000000000000000000110 = .ok (.randomUniform 6) ∧
    decode 0b00000011_10000000000000000000000000000001 = .ok (.randomUniform 0x80000001) := ⟨rfl, rfl⟩

theorem test_decode_rejects :
    decode 0x0000000000 = .error (.illegalOpcode 0x00) ∧ decode 0x0400000000 = .error (.illegalOpcode 0x04) ∧
    decode 0x8100000000 = .error (.illegalOpcode 0x81) := ⟨rfl, rfl, rfl⟩

/-- The program encodings of 95_test_vectors.md P2 and P3. -/
theorem test_encode :
    encode .randomU32 = 0x0100000000 ∧ encode (.randomFill 980) = 0x02000003d4 ∧
    encode (.randomUniform 0x80000001) = 0x0380000001 := ⟨rfl, rfl, rfl⟩

theorem test_decodeTableWord :
    decodeTableWord 40 0x0200000010 = some (.randomFill 16) ∧ decodeTableWord 40 0x0400000000 = none := ⟨rfl, rfl⟩

/-- A line of P2 with its comment, an alias with a hexadecimal argument, and a directive (R56). -/
theorem test_text :
    Text.parseLine "RANDOM_FILL 980       ; 02 000003d4".toList = some (.command 0x02000003d4) ∧
    Text.parseLine "uniform 0x80000001".toList = some (.command 0x0380000001) ∧
    Text.parseLine ".pid 7".toList = some (.pid 7) := by decide

/-! ### The cipher core -/

/-- V-QR, first and last row. -/
theorem test_quarterWords :
    quarterWords 0x11111111 0x01020304 0x9b8d6f43 0x01234567 = (0xea2a92f4, 0xcb1cf8ce, 0x4581472e, 0x5881c4bb) ∧
    quarterWords 0xffffffff 0xffffffff 0xffffffff 0xffffffff = (0xf0000ffd, 0x88790878, 0x0110fdef, 0x010ffdf0) := by
  decide

/-- The cipher state of V-BLK-1. -/
def zeroKeyed : CipherState := #v[0x61707865, 0x3320646e, 0x79622d32, 0x6b206574, 0, 0, 0, 0, 0, 0, 0, 0, 0, 0, 0, 0]

/-- V-BLK-1, the working array after the first column round and after the first double round. -/
theorem test_rounds :
    columnRound zeroKeyed = #v[0xb7877feb, 0x16526ab4, 0xa0f85005, 0xb1d26bcb, 0x4a7d5c86, 0xfae0ea21, 0x66e11e68,
      0xe3a851a6, 0x5a83fd3f, 0xa0c7c792, 0xf75be0ef, 0x0b7556f4, 0xe21e9bcf, 0x3c599472, 0xca29678d, 0xa600ebd4] ∧
    doubleRound zeroKeyed = #v[0xe45fd249, 0x1bb820a6, 0xe31a88ea, 0xe667a9fe, 0x2a3bf673, 0x86bf4098, 0x460b500a,
      0xfa169886, 0x538dca0e, 0x0c439641, 0x00fa16bc, 0x8a08812a, 0x6bbf8b09, 0xc33013d6, 0xbb9f9849, 0x87c62165] := by
  decide +kernel

/-- V-KEY: `INIT(SEED_0)`, from a state with a non-zero counter. -/
theorem test_init : initCipher ((List.range 40).map fun i => BitVec.ofNat 8 i) (zeroKeyed.set 12 5) =
    #v[0x61707865, 0x3320646e, 0x79622d32, 0x6b206574, 0x03020100, 0x07060504, 0x0b0a0908, 0x0f0e0d0c, 0x13121110,
      0x17161514, 0x1b1a1918, 0x1f1e1d1c, 0, 0, 0x23222120, 0x27262524] := by decide +kernel

/-- V-CTR: both carries. -/
theorem test_counter :
    counterIncrement ((zeroKeyed.set 12 0xffffffff).set 13 0) = zeroKeyed.set 13 1 ∧
    counterIncrement ((zeroKeyed.set 12 0xffffffff).set 13 0xffffffff) = zeroKeyed := by decide +kernel

/-! ### One command each, from small states -/

/-- A seeded engine, creator and live identity 7, with these unread bytes at the tail of the buffer. -/
def seededWith (count : Word) (bytes : List Byte) : State :=
  { State.reset with
    x := zeroKeyed, buf := Memory.writeBytes [] (1024 - bytes.length) bytes, haveReg := BitVec.ofNat 11 bytes.length
    count := count, creatorPid := 7, mode := .seeded, env := { Env.initial with livePid := 7 } }

/-- The same with the identity port at another value, so that a reseed is due. -/
def forkedWith (count : Word) (bytes : List Byte) : State := (seededWith count bytes).setLivePid 8

/-- A halted engine. -/
def halted : State := { seededWith 5 [1, 2] with mode := .halted }

/-- A gather's answer with the 40 bytes of SEED_0, byte `i` in bits `8i` to `8i + 7`. -/
def okAnswer : EntAnswer := ⟨false, 0x27262524232221201f1e1d1c1b1a191817161514131211100f0e0d0c0b0a09080706050403020100⟩

/-- A gather that fails. -/
def failAnswer : EntAnswer := ⟨true, 0⟩

/-- The answer and what is left of the buffer, its register and the budget, after one command. -/
def result (o : Host.Outcome State Fault Refusal) : Option (Sequencer × Memory × BitVec 11 × Word) :=
  match o with
  | .next t => some (t.seq, t.buf, t.haveReg, t.count)
  | _ => none

/-- V-U32-1 at the end of the buffer: `b8 d8 4a 37` is 374ad8b8, taken first byte first and zeroed. -/
theorem test_randomU32 : result (exec .randomU32 (seededWith 1600000 [0xb8, 0xd8, 0x4a, 0x37, 0x6a])) =
    some (.responding [] ⟨.ok, 0x374ad8b8⟩, [(1023, 0x6a)], 1, 1599996) := by decide +kernel

/-- V-CON-2 through the command: the fill empties the buffer and runs no rekey. -/
theorem test_randomFill_drains : result (exec (.randomFill 3) (seededWith 4 [0xe9, 0x53, 0x5c])) =
    some (.responding [0xe9, 0x53, 0x5c] ⟨.ok, 0⟩, [], 0, 1) := by decide +kernel

/-- V-FILL-1 and V-KEY: from UNINIT, `RANDOM_FILL 0` keys the engine from the raw bytes of SEED_0. -/
theorem test_randomFill_zero_seeds :
    (match exec (.randomFill 0) (State.queueEntropy okAnswer State.reset) with
      | .next t => some (t.x, t.buf, t.haveReg, t.count)
      | _ => none) =
    some (#v[0x61707865, 0x3320646e, 0x79622d32, 0x6b206574, 0x03020100, 0x07060504, 0x0b0a0908, 0x0f0e0d0c, 0x13121110,
      0x17161514, 0x1b1a1918, 0x1f1e1d1c, 0, 0, 0x23222120, 0x27262524], [], 0, 1600000) := by decide +kernel

/-- V-UNI-5 then V-UNI-6: for bound 6 the draw 3 is rejected and the draw 4 accepted; each is charged. -/
theorem test_randomUniform_rejects :
    result (exec (.randomUniform 6) (seededWith 100 [3, 0, 0, 0, 4, 0, 0, 0])) =
      some (.responding [] ⟨.ok, 4⟩, [], 0, 92) := by decide +kernel

/-- V-UNI-9: 7ffffffe is rejected, 80000001 gives 0. -/
theorem test_randomUniform_largeBound :
    result (exec (.randomUniform 0x80000001) (seededWith 100 [0xfe, 0xff, 0xff, 0x7f, 0x01, 0, 0, 0x80])) =
      some (.responding [] ⟨.ok, 0⟩, [], 0, 92) := by decide +kernel

/-- R111: a reset withdraws the pending request; the failure that comes late is ignored, and the next command's gather takes
the answer after it. -/
theorem test_late_answer_ignored :
    let s : State := { State.reset.assertReset with seq := .waiting .randomU32 7 }
    (match step s with
      | .next t => result (exec (.randomFill 0) ((t.queueEntropy failAnswer).queueEntropy okAnswer))
      | _ => none) = some (.responding [] ⟨.ok, 0⟩, [], 0, 1600000) := by decide +kernel

/-- The first draws of P1 and P2's key, bytes 40 to 43 of the keystream: 3fe02477 for SEED_Z, 7865db41 for SEED_0. -/
theorem test_first_draws :
    leWordAt (generate 1024 zeroKeyed).1 40 = 0x3fe02477 ∧
    leWordAt (generate 1024 (initCipher okAnswer.seed zeroKeyed)).1 40 = 0x7865db41 := by decide +kernel

/-! ### A case for every statement with hypotheses -/

/-- A next state whose sequencer is checked by evaluation. -/
theorem exists_next {o : Host.Outcome State Fault Refusal} {q : Sequencer}
    (h : (result o).map (·.1) = some q) : ∃ t, o = .next t ∧ t.seq = q := by
  cases o with
  | next t => exact ⟨t, rfl, by simpa [result] using h⟩
  | fault f => simp [result] at h
  | refused r => simp [result] at h

theorem witness_DecodeEncodeRoundTrip :
    (Instr.randomU32).wellFormed = true ∧ (Instr.randomFill 0xffffffff).wellFormed = true ∧
    (Instr.randomUniform 0).wellFormed = true := by decide

theorem witness_EncodeDecodeCanonical :
    decode 0x01deadbeef = .ok .randomU32 ∧ decode 0x02ffffffff = .ok (.randomFill 0xffffffff) := ⟨rfl, rfl⟩

theorem witness_IllegalWordIffOpcode :
    State.reset.mode ≠ .halted ∧ (0x00ffffffff : CmdWord).toNat / 2 ^ 32 ∉ [1, 2, 3] ∧
    (0x0400000000 : CmdWord).toNat / 2 ^ 32 ∉ [1, 2, 3] := by decide

/-- The engine with one word presented. -/
def presented (w : CmdWord) (s : State) : State := s.queueCommand w

theorem witness_StepRunsDecodedInstruction :
    let s := presented 0x0300000006 (seededWith 5 [1, 2, 3, 4])
    s.env.resetPin = false ∧ s.seq = .idle ∧ s.env.commands = [0x0300000006] ∧
    decode 0x0300000006 = .ok (.randomUniform 6) ∧ (Instr.randomUniform 6).wellFormed = true :=
  ⟨rfl, rfl, rfl, rfl, rfl⟩

theorem witness_PresentedWordRunsNext : decode 0x0200000010 = .ok (.randomFill 16) := rfl

theorem witness_HaltedAnswersAndStays_answer :
    let s := presented 0x0400000000 halted
    s.mode = .halted ∧ s.env.resetPin = false ∧ s.seq = .idle ∧ s.env.commands = [0x0400000000] ∧
    s.env.takes = none := ⟨rfl, rfl, rfl, rfl, rfl⟩

/-- The engine's part of the invariant in a halted engine, which nothing constrains but the counter and the buffer. -/
theorem halted_engineInv : EngineInv halted :=
  ⟨fun h => absurd h (by decide), ⟨rfl, rfl⟩, by decide, fun h => absurd h (by decide), by decide +kernel,
    by decide +kernel⟩

theorem witness_HaltedAnswersAndStays_stays :
    Machine.Inv halted ∧ halted.mode = .halted ∧ halted.env.resetPin = false ∧ ∃ t, step halted = .next t :=
  ⟨⟨halted_engineInv, trivial⟩, rfl, rfl, _, rfl⟩

theorem witness_HaltedAnswersAndStays_reset : halted.assertReset.env.resetPin = true ∧
    ∃ t, step halted.assertReset = .next t := ⟨rfl, _, rfl⟩

theorem witness_IllegalWordAnswered :
    let s := presented 0xffffffffff State.reset
    s.mode ≠ .halted ∧ s.env.resetPin = false ∧ s.seq = .idle ∧ s.env.commands = [0xffffffffff] ∧
    s.env.takes = none ∧ (0xffffffffff : CmdWord).toNat / 2 ^ 32 ∉ [1, 2, 3] := by decide

theorem witness_IdleEngineUnchanged :
    let s := seededWith 5 [1]
    s.env.resetPin = false ∧ s.seq = .idle ∧ s.env.commands = [] := by decide

/-- An engine in the middle of a command, with one late answer ready. -/
def blocked : State := { State.reset.queueEntropy okAnswer with seq := .waiting .randomU32 7 }

theorem witness_ResetFromAnyState :
    blocked.assertReset.env.resetPin = true ∧ blocked.assertReset.seq = .waiting .randomU32 7 ∧
    halted.assertReset.env.resetPin = true ∧ ∀ cmd live, halted.assertReset.seq ≠ .waiting cmd live :=
  ⟨rfl, rfl, rfl, nofun⟩

theorem witness_LateAnswerIgnoredAfterReset :
    let s := { State.reset.assertReset with seq := .waiting (.randomFill 0) 7 }
    s.env.resetPin = true ∧ s.seq = .waiting (.randomFill 0) 7 ∧ s.env.withdrawn ≤ s.env.entropy.length ∧
    s.env.answers = [] ∧ firstRequest .randomU32 = some 4 := ⟨rfl, rfl, by decide, rfl, rfl⟩

/-- A seeded state has the invariant. -/
theorem seeded_inv : Machine.Inv (seededWith 1 [0xb8, 0xd8, 0, 0x37]) :=
  ⟨⟨fun _ => ⟨rfl, rfl, rfl, rfl⟩, ⟨rfl, rfl⟩, by decide, fun _ => by decide, by decide +kernel, by decide +kernel⟩,
    trivial⟩

theorem witness_StepKeepsInv :
    Machine.Inv (seededWith 1 [0xb8, 0xd8, 0, 0x37]) ∧ ∃ t, step (seededWith 1 [0xb8, 0xd8, 0, 0x37]) = .next t :=
  ⟨seeded_inv, _, rfl⟩

theorem witness_StepNeverStops : Machine.Inv (seededWith 1 [0xb8, 0xd8, 0, 0x37]) := seeded_inv

/-- An uninitialised engine with one answer ready and `RANDOM_FILL 0` presented. -/
def starting (a : EntAnswer) : State := presented 0x0200000000 (State.reset.queueEntropy a)

theorem starting_inv (a : EntAnswer) : Machine.Inv (starting a) :=
  ⟨⟨fun h => absurd (show Mode.uninit = .seeded from h) (by decide), ⟨rfl, rfl⟩, Nat.zero_le _,
    fun h => absurd (show Mode.uninit = .seeded from h) (by decide), fun _ _ => rfl, List.Pairwise.nil, nofun⟩, trivial⟩

/-- To SEEDED with an answer, to HALTED with a failure. -/
theorem witness_LifecycleTransitions :
    (Machine.Inv (starting okAnswer) ∧ (starting okAnswer).env.resetPin = false ∧
      ∃ t, step (starting okAnswer) = .next t ∧ t.mode ≠ (starting okAnswer).mode) ∧
    (Machine.Inv (starting failAnswer) ∧ (starting failAnswer).env.resetPin = false ∧
      ∃ t, step (starting failAnswer) = .next t ∧ t.mode ≠ (starting failAnswer).mode) :=
  ⟨⟨starting_inv _, rfl, _, rfl, by decide⟩, starting_inv _, rfl, _, rfl, by decide⟩

theorem witness_LogsExactlyOnHalting :
    Machine.Inv (starting failAnswer) ∧ (starting failAnswer).mode ≠ .halted ∧
      (∃ t, step (starting failAnswer) = .next t ∧ t.mode = .halted) ∧
    Machine.Inv halted ∧ ∃ t, step halted = .next t ∧ t.mode = .halted :=
  ⟨starting_inv _, by decide, ⟨_, rfl, rfl⟩, ⟨halted_engineInv, trivial⟩, _, rfl, rfl⟩

/-- An engine that holds two bytes and a record for a host that takes `takes` more transfers. -/
def holding (takes : Option Nat) : State :=
  State.setTakes takes { seededWith 5 [] with seq := .responding [0xe9, 0x53] ⟨.ok, 0⟩ }

/-- A host that never stalls, and one that stalls right after the record. -/
theorem witness_ReadyHostTakesAll : ∀ n ∈ [none, some 3],
    (holding n).env.resetPin = false ∧ (holding n).seq = .responding [0xe9, 0x53] ⟨.ok, 0⟩ ∧
    ∀ k ∈ (holding n).env.takes, [(0xe9 : Byte), 0x53].length < k := by decide

/-- No byte, one byte and all bytes taken before the stall. -/
theorem witness_StalledHostHoldsEngine : ∀ k ∈ [0, 1, 2],
    (holding (some k)).env.resetPin = false ∧ (holding (some k)).seq = .responding [0xe9, 0x53] ⟨.ok, 0⟩ ∧
    (holding (some k)).env.takes = some k ∧ k ≤ [(0xe9 : Byte), 0x53].length := by decide

theorem witness_AcceptedWordAnsweredOnce :
    let s := presented 0x0200000000 State.reset
    let t := presented 0x0200000003 (seededWith 4 [0xe9, 0x53, 0x5c])
    s.haveReg.toNat ≤ 1024 ∧ s.env.resetPin = false ∧ s.seq = .idle ∧ s.env.takes = none ∧
    s.env.commands = [0x0200000000] ∧ (∃ u, step s = .next u) ∧
    t.haveReg.toNat ≤ 1024 ∧ t.env.resetPin = false ∧ t.seq = .idle ∧ t.env.takes = none ∧
    t.env.commands = [0x0200000003] ∧ (∃ u, step t = .next u) :=
  ⟨by decide, rfl, rfl, rfl, rfl, ⟨_, rfl⟩, by decide, rfl, rfl, rfl, rfl, ⟨_, rfl⟩⟩

theorem witness_RotationMovesBits : 16 ∈ [16, 12, 8, 7] ∧ 7 ∈ [16, 12, 8, 7] ∧ 0 < 32 ∧ 31 < 32 := by decide

theorem witness_QuarterRoundWords : [(0 : Fin 16), 5, 10, 15].Nodup ∧ (1 : Fin 16) ∉ [(0 : Fin 16), 5, 10, 15] := by
  decide

theorem witness_RoundsAnyOrder :
    [((3 : Fin 16), (7 : Fin 16), (11 : Fin 16), (15 : Fin 16)), (1, 5, 9, 13), (0, 4, 8, 12), (2, 6, 10, 14)].Perm
      [(0, 4, 8, 12), (1, 5, 9, 13), (2, 6, 10, 14), (3, 7, 11, 15)] ∧
    [((3 : Fin 16), (4 : Fin 16), (9 : Fin 16), (14 : Fin 16)), (1, 6, 11, 12), (0, 5, 10, 15), (2, 7, 8, 13)].Perm
      [(0, 5, 10, 15), (1, 6, 11, 12), (2, 7, 8, 13), (3, 4, 9, 14)] := by decide

theorem witness_BlockSerialization : (3 : Nat) < 4 := by decide

theorem witness_BlockAdvancesCounterOnly :
    (11 : Fin 16) ≠ 12 ∧ (14 : Fin 16) ≠ 12 ∧ (11 : Fin 16) ≠ 13 ∧ (14 : Fin 16) ≠ 13 := by decide

theorem witness_GenerateLengthAndCounter : (0 : Nat) < 1 ∧ (63 : Nat) < 64 ∧ (64 : Nat) ≤ 64 ∧ (64 : Nat) ≤ 65 ∧ (15 : Fin 16) ≠ 12 ∧ (15 : Fin 16) ≠ 13 := by decide

theorem witness_InitLoadsSeed : okAnswer.seed.length = 40 ∧ (7 : Nat) < 8 ∧ (1 : Nat) < 2 := by decide

theorem witness_RekeyEffect :
    (∀ e, some okAnswer.seed = some e → e.length = 40) ∧ (39 : Nat) < 40 ∧ (40 : Nat) ≤ 40 ∧ (40 : Nat) < 1024 ∧
    (40 : Nat) ≤ 1023 ∧ (1023 : Nat) < 1024 := ⟨by rintro e ⟨⟩; decide, by decide⟩

theorem witness_RekeyIgnoresZeroExtraAndOldBuffer :
    (seededWith 1 [0xb8, 0, 0x37]).buf.wf ∧ Memory.wf [(0, 1), (1023, 0xff)] := by decide +kernel

theorem witness_EqualReadsEqualMemory :
    Memory.wf [(0, 1), (1023, 0xff)] ∧ Memory.wf (Memory.writeBytes [(1023, 0xff)] 0 [1, 0]) ∧
    ∀ a, a < 1024 → Memory.readByte [(0, 1), (1023, 0xff)] a =
      Memory.readByte (Memory.writeBytes [(1023, 0xff)] 0 [1, 0]) a := by decide +kernel

theorem witness_ConsumeHandsOutAndZeroes :
    (1 ≤ 3 ∧ 3 ≤ (seededWith 4 [0xe9, 0x53, 0x5c]).haveReg.toNat ∧
      (seededWith 4 [0xe9, 0x53, 0x5c]).haveReg.toNat ≤ 984 ∧ 2 < 3 ∧ 1020 < 1024 - 3) ∧
    (1 ≤ 1024 ∧ 1024 ≤ (seededWith 4 (List.replicate 1024 1)).haveReg.toNat ∧
      (seededWith 4 (List.replicate 1024 1)).haveReg.toNat ≤ 1024) := by decide +kernel

theorem witness_ConsumeInPieces :
    let s := seededWith 4 [0xe9, 0x53, 0x5c]
    1 + 2 ≤ s.haveReg.toNat ∧ s.haveReg.toNat ≤ 1024 ∧ s.buf.wf := by decide +kernel

/-- V-STIR, the rows without a trigger at the boundary. -/
theorem witness_StirWithoutTriggerCharges :
    Settled 4 (seededWith 5 []) ∧ Settled 0 (seededWith 1 []) ∧ Settled 1599999 (seededWith 1600000 []) :=
  ⟨⟨rfl, by decide, rfl⟩, ⟨rfl, by decide, rfl⟩, ⟨rfl, by decide, rfl⟩⟩

/-- V-STIR, the rows with a trigger: uninitialised, budget reached exactly, identity changed. -/
theorem witness_StirWithTriggerReseeds :
    Triggering 0 State.reset ∧ Triggering 4 (seededWith 4 [1]) ∧ Triggering 4 (forkedWith 1600000 [1]) ∧
    ((seededWith 4 [1]).queueEntropy okAnswer).env.answers = [okAnswer] ∧ okAnswer.fail = false :=
  ⟨.inl rfl, .inr ⟨rfl, .inl (by decide)⟩, .inr ⟨rfl, .inr (by decide)⟩, rfl, rfl⟩

theorem witness_ReseedAtBudgetBoundary :
    let s := seededWith 1600000 []
    s.mode = .seeded ∧ s.count = 1600000 ∧ s.env.pidSamples = [] ∧ s.env.livePid = s.creatorPid ∧
    ∃ t, stirsWithoutGather [4, 1599995] s = some t := ⟨rfl, rfl, rfl, rfl, _, rfl⟩

theorem witness_EntropyFailureHalts :
    let s := (forkedWith 5 [1]).queueEntropy failAnswer
    firstRequest (.randomUniform 2) = some 4 ∧ firstRequest (.randomFill 0) = some 0 ∧ Triggering 4 s ∧ Triggering 0 s ∧
    s.env.answers = [failAnswer] ∧ failAnswer.fail = true :=
  ⟨rfl, rfl, .inr ⟨rfl, .inr (by decide)⟩, .inr ⟨rfl, .inr (by decide)⟩, rfl, rfl⟩

theorem witness_UnansweredGatherHangs :
    firstRequest .randomU32 = some 4 ∧ Triggering 4 State.reset ∧ State.reset.env.answers = [] ∧
    ∀ t : State, t = { State.reset with
      seq := .waiting .randomU32 State.reset.nextPid, env := State.reset.env.afterRequest } → t.env.resetPin = false :=
  ⟨rfl, .inl rfl, rfl, by rintro t rfl; rfl⟩

/-- A first draw from the buffer that bound 6 rejects, then a draw that waits because the identity has changed. -/
theorem witness_LateAnswerSameRun :
    let s := { seededWith 100 [3, 0, 0, 0] with env := { Env.initial with livePid := 8, pidSamples := [7, 8] } }
    ∃ t, exec (.randomUniform 6) s = .next t ∧ t.seq = .waiting (.randomUniform 6) 8 :=
  exists_next (by decide +kernel)

theorem witness_RandomU32FromBuffer :
    let s := seededWith 5 [0xb8, 0xd8, 0x4a, 0x37]
    Settled 4 s ∧ 4 ≤ s.haveReg.toNat ∧ s.haveReg.toNat ≤ 1024 ∧ 3 < 4 ∧ 1019 < 1024 - s.haveReg.toNat :=
  ⟨⟨rfl, by decide, rfl⟩, by decide, by decide, by decide, by decide⟩

theorem witness_RandomU32AfterRekey :
    Settled 4 (seededWith 5 [0xe9, 0x53, 0x5c]) ∧ (seededWith 5 [0xe9, 0x53, 0x5c]).haveReg.toNat < 4 ∧ 43 < 44 ∧
    44 ≤ 44 ∧ 1023 < 1024 := ⟨⟨rfl, by decide, rfl⟩, by decide, by decide, by decide, by decide⟩

theorem witness_RandomU32AfterReseed :
    Triggering 4 (State.reset.queueEntropy okAnswer) ∧ Triggering 4 ((seededWith 4 [1]).queueEntropy okAnswer) ∧
    (State.reset.queueEntropy okAnswer).env.answers = [okAnswer] ∧
    ((seededWith 4 [1]).queueEntropy okAnswer).env.answers = [okAnswer] ∧ okAnswer.fail = false :=
  ⟨.inl rfl, .inr ⟨rfl, .inl (by decide)⟩, rfl, rfl, rfl⟩

theorem witness_FillFourMatchesWord :
    (Settled 4 (seededWith 5 []) ∧ (seededWith 5 []).haveReg = 0) ∧
    (Settled 4 (seededWith 5 [1, 2, 3, 4]) ∧ 4 ≤ (seededWith 5 [1, 2, 3, 4]).haveReg.toNat ∧
      (seededWith 5 [1, 2, 3, 4]).haveReg.toNat ≤ 1024) ∧
    (Triggering 4 (State.reset.queueEntropy okAnswer) ∧ ∃ a rest,
      (State.reset.queueEntropy okAnswer).env.answers = a :: rest ∧ a.fail = false) :=
  ⟨⟨⟨rfl, by decide, rfl⟩, rfl⟩, ⟨⟨rfl, by decide, rfl⟩, by decide, by decide⟩, .inl rfl, okAnswer, [], rfl, rfl⟩

theorem witness_RandomFillFromBuffer :
    let s := seededWith 4 [0xe9, 0x53, 0x5c]
    Settled 3 s ∧ Settled 0 s ∧ (3 : Word).toNat ≤ s.haveReg.toNat ∧ s.haveReg.toNat ≤ 1024 ∧ 2 < (3 : Word).toNat :=
  ⟨⟨rfl, by decide, rfl⟩, ⟨rfl, by decide, rfl⟩, by decide, by decide, by decide⟩

/-- A fill that runs past the unread bytes, and one that does not. -/
theorem witness_RandomFillEmitsStream :
    let s := seededWith 100 [0xe9, 0x53, 0x5c]
    s.mode ≠ .halted ∧ (∃ t, stirIfNeeded 4 s = .done () t ∧ t.haveReg.toNat ≤ 1024 ∧ t.buf.wf) ∧
    ∃ t, stirIfNeeded 3 s = .done () t ∧ t.haveReg.toNat ≤ 1024 ∧ t.buf.wf :=
  ⟨by decide, ⟨_, rfl, by decide +kernel, by decide +kernel⟩, _, rfl, by decide +kernel, by decide +kernel⟩

theorem witness_RandomFillRekeyCount :
    let s := seededWith 2000 [0xe9, 0x53, 0x5c]
    s.mode ≠ .halted ∧ (∃ t, stirIfNeeded 987 s = .done () t ∧ t.haveReg.toNat < (987 : Word).toNat ∧ t.buf.wf) ∧
    ∃ t, stirIfNeeded 988 s = .done () t ∧ t.haveReg.toNat ≤ 1024 ∧ t.buf.wf :=
  ⟨by decide, ⟨_, rfl, by decide +kernel, by decide +kernel⟩, _, rfl, by decide +kernel, by decide +kernel⟩

theorem witness_RandomUniformTrivialBound :
    (0 : Word) < 2 ∧ (1 : Word) < 2 ∧ State.reset.mode ≠ .halted := by decide

/-- The draws V-UNI-6 and V-UNI-9: the least that bounds 6 and 80000001 accept; the first also as a completed `NEXT_U32`. -/
theorem witness_RandomUniformAccepts_buffer :
    let s := seededWith 5 [4, 0, 0, 0]
    (2 : Word) ≤ 6 ∧ Settled 4 s ∧ 4 ≤ s.haveReg.toNat ∧ s.haveReg.toNat ≤ 1024 ∧
    2 ^ 32 % (6 : Word).toNat ≤ (le32 (s.buf.readByte 1020) (s.buf.readByte 1021) (s.buf.readByte 1022)
      (s.buf.readByte 1023)).toNat ∧ 2 ^ 32 % (0x80000001 : Word).toNat ≤ (le32 0xff 0xff 0xff 0x7f).toNat ∧
    s.mode ≠ .halted ∧ ∃ v t, nextU32 s = .done v t ∧ 2 ^ 32 % (6 : Word).toNat ≤ v.toNat :=
  ⟨by decide, ⟨rfl, by decide, rfl⟩, by decide, by decide, by decide +kernel, by decide +kernel, by decide, _, _, rfl,
    by decide +kernel⟩

/-- V-UNI-4, the draw 3fe02477 after a rekey of the zero key with three bytes unread. -/
theorem witness_RandomUniformAccepts_rekey :
    let s := seededWith 5 [0xe9, 0x53, 0x5c]
    (2 : Word) ≤ 6 ∧ Settled 4 s ∧ s.haveReg.toNat < 4 ∧
    2 ^ 32 % (6 : Word).toNat ≤ (leWordAt (generate 1024 s.x).1 40).toNat :=
  ⟨by decide, ⟨rfl, by decide, rfl⟩, by decide, by decide +kernel⟩

/-- Command 3 of P3: the first draw after reset with SEED_0. -/
theorem witness_RandomUniformAccepts_reseed :
    let s := State.reset.queueEntropy okAnswer
    (2 : Word) ≤ 6 ∧ Triggering 4 s ∧ s.env.answers = [okAnswer] ∧ okAnswer.fail = false ∧
    2 ^ 32 % (6 : Word).toNat ≤ (leWordAt (generate 1024
      (if s.mode = .uninit then initCipher okAnswer.seed s.x else (rekey (some okAnswer.seed) s).x)).1 40).toNat :=
  ⟨by decide, .inl rfl, rfl, rfl, by decide +kernel⟩

/-- V-UNI-5: the greatest draw that bound 6 rejects. -/
theorem witness_RandomUniformRejectsAndRedraws :
    let s := seededWith 5 [3, 0, 0, 0]
    (2 : Word) ≤ 6 ∧ s.mode ≠ .halted ∧ (∃ v t, nextU32 s = .done v t ∧ v.toNat < 2 ^ 32 % (6 : Word).toNat) :=
  ⟨by decide, by decide, _, _, rfl, by decide +kernel⟩

theorem witness_RandomUniformInRange :
    let s := seededWith 5 [4, 0, 0, 0]
    s.haveReg.toNat ≤ 1024 ∧ (∃ t, exec (.randomUniform 6) s = .next t ∧ t.seq = .responding [] ⟨.ok, 4⟩) ∧
    ∃ t, exec (.randomUniform 1) s = .next t ∧ t.seq = .responding [] ⟨.ok, 0⟩ :=
  ⟨by decide, exists_next (by decide +kernel), exists_next (by decide +kernel)⟩

theorem witness_RejectionThreshold : (2 : Word) ≤ 2 ∧ (2 : Word) ≤ 0xffffffff := by decide

theorem witness_AcceptedDrawsUniform : (2 : Word) ≤ 6 ∧ (5 : Word) < 6 ∧ (0 : Word) < 6 := by decide

/-- `have` at both ends of its range inside `BUF`. -/
theorem witness_EveryCommandAnswersOrWaits :
    State.reset.haveReg.toNat ≤ 1024 ∧ (seededWith 5 (List.replicate 1024 1)).haveReg.toNat ≤ 1024 := by decide +kernel

theorem witness_OneSamplePerCommand :
    let s := seededWith 5 [1, 2, 3, 4]
    (∀ bound, Instr.randomFill 4 ≠ .randomUniform bound) ∧ firstRequest (.randomFill 4) = some 4 ∧ s.mode ≠ .halted ∧
    (∃ t, exec (.randomFill 4) s = .next t) ∧ Settled 4 s ∧ Triggering 4 State.reset ∧
    ∃ t, exec (.randomFill 4) State.reset = .next t :=
  ⟨nofun, rfl, by decide, ⟨_, rfl⟩, ⟨rfl, by decide, rfl⟩, .inl rfl, _, rfl⟩

theorem witness_ReseedIgnoresUnreadBytes :
    let s := (forkedWith 1600000 [0xe9, 0x53, 0x5c]).queueEntropy okAnswer
    s.buf.wf ∧ Memory.wf [(1023, 0xff)] ∧ firstRequest (.randomFill 4) = some 4 ∧ Instr.randomFill 4 ≠ .randomFill 0 ∧
    Triggering 4 s ∧ s.env.answers = [okAnswer] ∧ okAnswer.fail = false :=
  ⟨by decide +kernel, by decide +kernel, rfl, by decide, .inr ⟨rfl, .inr (by decide)⟩, rfl, rfl⟩

theorem witness_UninitResidueUnobservable :
    let s := State.reset.queueEntropy okAnswer
    let t := { s with x := zeroKeyed, buf := [(1023, 0xff)], haveReg := 2047, count := 9, creatorPid := 3 }
    s.mode = .uninit ∧ t.mode = .uninit ∧ s.env = t.env ∧ s.buf.wf ∧ t.buf.wf := by decide +kernel

end Sys2Proof.Tests
end

