-- ==== Sys2Proof/Proofs/LittleEndian.lean ====
section
/-! Byte order (20_memory.md R33): what `le32` and `bytesLe32` are as numbers. That each undoes the other then is
division with remainder by 256. -/

namespace Sys2Proof.Machine

/-- The high part of a concatenation counts `2 ^ n`, where `n` is the width of the low part. -/
theorem toNat_append_eq_mul_add {m n : Nat} (hi : BitVec m) (lo : BitVec n) :
    (hi ++ lo).toNat = 2 ^ n * hi.toNat + lo.toNat := by
  rw [BitVec.toNat_append, ← Nat.shiftLeft_add_eq_or_of_lt lo.isLt, Nat.shiftLeft_eq, Nat.mul_comm]

theorem le32_toNat (b0 b1 b2 b3 : Byte) :
    (le32 b0 b1 b2 b3).toNat = b0.toNat + 256 * b1.toNat + 65536 * b2.toNat + 16777216 * b3.toNat := by
  simp only [le32, toNat_append_eq_mul_add]
  omega

/-- The bit slices of `bytesLe32` as quotients; `BitVec.ofNat 8` takes the remainder by 256. -/
theorem bytesLe32_eq_ofNat (v : Word) :
    bytesLe32 v = [BitVec.ofNat 8 v.toNat, BitVec.ofNat 8 (v.toNat / 256), BitVec.ofNat 8 (v.toNat / 65536),
      BitVec.ofNat 8 (v.toNat / 16777216)] := by
  simp only [bytesLe32, BitVec.extractLsb', Nat.shiftRight_eq_div_pow, Nat.reducePow, Nat.div_one]

@[simp] theorem bytesLe32_le32 (b0 b1 b2 b3 : Byte) : bytesLe32 (le32 b0 b1 b2 b3) = [b0, b1, b2, b3] := by
  rw [bytesLe32_eq_ofNat, le32_toNat]
  simp only [List.cons.injEq, and_true, BitVec.toNat_eq, BitVec.toNat_ofNat]
  omega

@[simp] theorem leWordAt_bytesLe32 (v : Word) : leWordAt (bytesLe32 v) 0 = v := by
  apply BitVec.eq_of_toNat_eq
  rw [leWordAt, le32_toNat, bytesLe32_eq_ofNat]
  simp only [List.getD_cons_zero, List.getD_cons_succ, Nat.zero_add, BitVec.toNat_ofNat]
  omega

/-- Settles O31: the two formulas, and from them that `le32` and `bytesLe32` undo each other. -/
theorem littleEndianInverse : Obligations.LittleEndianInverse := by
  unfold Obligations.LittleEndianInverse
  refine ⟨fun b0 b1 b2 b3 => ⟨?sum, ?bytesOfWord⟩, fun v => ⟨?bytes, ?wordOfBytes⟩, ?sample⟩
  case sum => exact le32_toNat b0 b1 b2 b3
  case bytesOfWord => exact bytesLe32_le32 b0 b1 b2 b3
  case bytes => exact bytesLe32_eq_ofNat v
  case wordOfBytes => exact leWordAt_bytesLe32 v
  case sample => decide

end Sys2Proof.Machine
end

