-- ==== Sys2Proof/Proofs/IllegalWords.lean ====
section
/-! Legality of a command word (30_encoding.md R48). Both the decoder and the opcode table look at `OP` alone, so
each is first characterised by `CmdWord.op`, which as a number is the quotient by `2 ^ 32`. -/

namespace Sys2Proof

open Laws.EncodesLegalWord

theorem CmdWord.op_toNat (w : CmdWord) : w.op.toNat = w.toNat / 2 ^ 32 := by
  have hop : w.toNat / 2 ^ 32 < 2 ^ 8 := by
    have := w.isLt
    omega
  rw [CmdWord.op, BitVec.extractLsb'_toNat, Nat.shiftRight_eq_div_pow, Nat.mod_eq_of_lt hop]

/-- A word is its two fields (R45). -/
theorem CmdWord.assemble_op_arg (w : CmdWord) : assemble w.op w.arg = w :=
  BitVec.extractLsb'_append_extractLsb'

/-- The legal opcodes as bytes and as numbers. -/
theorem CmdWord.op_mem_legal_iff (w : CmdWord) :
    w.op ∈ [0x01, 0x02, 0x03] ↔ w.toNat / 2 ^ 32 ∈ [1, 2, 3] := by
  simp only [List.mem_cons, List.not_mem_nil, or_false, BitVec.toNat_eq, CmdWord.op_toNat]
  rfl

theorem decode_randomU32 {w : CmdWord} (h : w.op = 0x01) : decode w = .ok .randomU32 := by
  simp [decode, h]

theorem decode_randomFill {w : CmdWord} (h : w.op = 0x02) : decode w = .ok (.randomFill w.arg) := by
  simp [decode, h]

theorem decode_randomUniform {w : CmdWord} (h : w.op = 0x03) : decode w = .ok (.randomUniform w.arg) := by
  simp [decode, h]

theorem decode_illegal {w : CmdWord} (h : w.op ∉ [0x01, 0x02, 0x03]) : decode w = .error (.illegalOpcode w.op) := by
  simp only [List.mem_cons, List.not_mem_nil, or_false, not_or] at h
  obtain ⟨hU32, hFill, hUniform⟩ := h
  simp only [decode, if_neg hU32, if_neg hFill, if_neg hUniform]

theorem decode_accepts_iff_op (w : CmdWord) : (∃ i, decode w = .ok i) ↔ w.op ∈ [0x01, 0x02, 0x03] := by
  constructor
  · rintro ⟨i, hi⟩
    by_contra hop
    rw [decode_illegal hop] at hi
    cases hi
  · intro hop
    simp only [List.mem_cons, List.not_mem_nil, or_false] at hop
    obtain hU32 | hFill | hUniform := hop
    · exact ⟨_, decode_randomU32 hU32⟩
    · exact ⟨_, decode_randomFill hFill⟩
    · exact ⟨_, decode_randomUniform hUniform⟩

/-- A word matches an opcode's row of the table exactly when it carries that opcode (R58). -/
theorem CmdWord.matches_row_iff (w : CmdWord) (op : Byte) : w &&& 0xFF00000000 = assemble op 0 ↔ w.op = op := by
  have hmask : w &&& 0xFF00000000 = assemble w.op 0 := by
    rw [← mask_assemble w.op w.arg, CmdWord.assemble_op_arg]
  rw [hmask]
  constructor
  · intro h
    simpa only [op_assemble] using congrArg CmdWord.op h
  · rintro rfl
    rfl

/-- The rows of the table are the words of the three opcodes under the opcode mask. -/
theorem opcodeRows_eq_map : opcodeRows = [0x01, 0x02, 0x03].map fun op => (0xFF00000000, assemble op 0) := by
  decide

theorem CmdWord.wellFormed_iff_op (w : CmdWord) : w.wellFormed = true ↔ w.op ∈ [0x01, 0x02, 0x03] := by
  simp only [CmdWord.wellFormed, opcodeRows_eq_map, List.any_map, List.any_eq_true, Function.comp_apply, beq_iff_eq,
    CmdWord.matches_row_iff, exists_eq_right']

/-- Settles O3: decoder and table accept by `OP` alone, and dispatch of a word that the decoder refuses is the entry on
`IllegalCommand`. -/
theorem illegalWordIffOpcode : Obligations.IllegalWordIffOpcode := by
  unfold Obligations.IllegalWordIffOpcode
  intro w
  simp only [← CmdWord.op_mem_legal_iff]
  refine ⟨decode_accepts_iff_op w, CmdWord.wellFormed_iff_op w, fun s hmode hop => ?_⟩
  rw [Machine.dispatch_illegal hmode (decode_illegal hop), Machine.takeException_illegalCommand]

end Sys2Proof
end

