-- ==== Sys2Proof/Proofs/QuarterRound.lean ====
section
/-! The rotation and the quarter round (40_cipher_core.md R60, R61, R65). On indices the quarter round is an update of
four words that reads no other; two of them on disjoint words therefore commute. -/

namespace Sys2Proof.Machine

theorem rotl32_eq_rotateLeft {n : Nat} (hn : n < 32) (v : Word) : rotl32 v n = v.rotateLeft n :=
  (BitVec.rotateLeft_eq_rotateLeftAux_of_lt hn).symm

theorem getLsbD_rotl32 {n i : Nat} (hn : n < 32) (hi : i < 32) (v : Word) :
    (rotl32 v n).getLsbD ((i + n) % 32) = v.getLsbD i := by
  rw [rotl32_eq_rotateLeft hn, BitVec.getLsbD_rotateLeft_of_le hn]
  by_cases hwrap : i + n < 32
  · have hbit : (i + n) % 32 = i + n := Nat.mod_eq_of_lt hwrap
    simp [hbit, hwrap]
  · have hbit : (i + n) % 32 = i + n - 32 := by omega
    have hlow : i + n - 32 < n := by omega
    have hsource : 32 - n + (i + n - 32) = i := by omega
    simp [hbit, hlow, hsource]

/-- The bits shifted out come back below the bits shifted up, so the two parts add without a carry. -/
theorem rotl32_toNat {n : Nat} (hn : n < 32) (v : Word) :
    (rotl32 v n).toNat = (v.toNat * 2 ^ n) % 2 ^ 32 + v.toNat / 2 ^ (32 - n) := by
  have hpow : 2 ^ 32 = 2 ^ (32 - n) * 2 ^ n := by rw [← pow_add, Nat.sub_add_cancel hn.le]
  have hlow : v.toNat / 2 ^ (32 - n) < 2 ^ n := Nat.div_lt_of_lt_mul (hpow ▸ v.isLt)
  have hhigh : v.toNat * 2 ^ n % 2 ^ 32 = (v.toNat % 2 ^ (32 - n)) <<< n := by
    rw [hpow, Nat.mul_mod_mul_right, Nat.shiftLeft_eq]
  rw [rotl32_eq_rotateLeft hn, BitVec.toNat_rotateLeft, Nat.mod_eq_of_lt hn, Nat.shiftLeft_eq,
    Nat.shiftRight_eq_div_pow, hhigh, Nat.shiftLeft_add_eq_or_of_lt hlow]

theorem rotl32_injective {n : Nat} (hn : n < 32) : Function.Injective (rotl32 · n) := by
  intro v u (h : rotl32 v n = rotl32 u n)
  apply BitVec.eq_of_getLsbD_eq
  intro i hi
  rw [← getLsbD_rotl32 hn hi v, h, getLsbD_rotl32 hn hi u]

/-- Settles O23, from the bit rule and the value rule, which hold for every amount below 32. -/
theorem rotationMovesBits : Obligations.RotationMovesBits := by
  unfold Obligations.RotationMovesBits
  intro v n i hn hi
  have hlt : n < 32 := by
    have hle : ∀ m ∈ [16, 12, 8, 7], m < 32 := by decide
    exact hle n hn
  exact ⟨getLsbD_rotl32 hlt hi v, rotl32_toNat hlt v⟩

/-- Three assignments of R61, add, xor and rotate, can be undone when the word added is known. -/
theorem add_xor_rotl32_cancel {n : Nat} (hn : n < 32) {p q r p' q' r' : Word} (hadded : q = q')
    (hsum : p + q = p' + q') (hrot : rotl32 (r ^^^ (p + q)) n = rotl32 (r' ^^^ (p' + q')) n) : p = p' ∧ r = r' := by
  subst hadded
  have hp : p = p' := add_right_cancel hsum
  subst hp
  exact ⟨rfl, (BitVec.xor_left_inj _).1 (rotl32_injective hn hrot)⟩

/-- The four groups of three assignments are undone from the last to the first. -/
theorem quarterWords_injective :
    Function.Injective fun q : Word × Word × Word × Word => quarterWords q.1 q.2.1 q.2.2.1 q.2.2.2 := by
  rintro ⟨a, b, c, d⟩ ⟨a', b', c', d'⟩ h
  simp only [quarterWords, Prod.mk.injEq] at h
  obtain ⟨ha, hb, hc, hd⟩ := h
  obtain ⟨hc₁, hb₁⟩ := add_xor_rotl32_cancel (by decide) hd hc hb
  obtain ⟨ha₁, hd₁⟩ := add_xor_rotl32_cancel (by decide) hb₁ ha hd
  obtain ⟨hc₀, hb₀⟩ := add_xor_rotl32_cancel (by decide) hd₁ hc₁ hb₁
  obtain ⟨ha₀, hd₀⟩ := add_xor_rotl32_cancel (by decide) hb₀ ha₁ hd₁
  rw [ha₀, hb₀, hc₀, hd₀]

theorem quarterRound_getElem (a b c d j : Fin 16) (w : CipherState) : (quarterRound a b c d w)[j] =
    if d = j then (quarterWords w[a] w[b] w[c] w[d]).2.2.2
    else if c = j then (quarterWords w[a] w[b] w[c] w[d]).2.2.1
    else if b = j then (quarterWords w[a] w[b] w[c] w[d]).2.1
    else if a = j then (quarterWords w[a] w[b] w[c] w[d]).1
    else w[j] := by
  simp only [quarterRound, Fin.getElem_fin, Vector.getElem_set, Fin.ext_iff]

theorem quarterRound_getElem_of_notMem {a b c d j : Fin 16} (hj : j ∉ [a, b, c, d]) (w : CipherState) :
    (quarterRound a b c d w)[j] = w[j] := by
  simp only [List.mem_cons, List.not_mem_nil, or_false, not_or] at hj
  obtain ⟨ha, hb, hc, hd⟩ := hj
  rw [quarterRound_getElem, if_neg (Ne.symm hd), if_neg (Ne.symm hc), if_neg (Ne.symm hb), if_neg (Ne.symm ha)]

/-- On distinct indices no later write of the four covers an earlier one. -/
theorem quarterRound_getElem_of_nodup {a b c d : Fin 16} (hnodup : [a, b, c, d].Nodup) (w : CipherState) :
    ((quarterRound a b c d w)[a], (quarterRound a b c d w)[b], (quarterRound a b c d w)[c], (quarterRound a b c d w)[d])
      = quarterWords w[a] w[b] w[c] w[d] := by
  simp only [List.nodup_cons, List.mem_cons, List.not_mem_nil, or_false, not_or, List.nodup_nil, not_false_eq_true,
    and_true] at hnodup
  obtain ⟨⟨hab, hac, had⟩, ⟨hbc, hbd⟩, hcd⟩ := hnodup
  simp only [quarterRound_getElem, if_true, if_neg (Ne.symm hab), if_neg (Ne.symm hac), if_neg (Ne.symm had),
    if_neg (Ne.symm hbc), if_neg (Ne.symm hbd), if_neg (Ne.symm hcd)]

/-- Settles O24: the words by the write rules, and the bijection because the step on four words loses nothing and there
are finitely many. -/
theorem quarterRoundWords : Obligations.QuarterRoundWords := by
  unfold Obligations.QuarterRoundWords
  refine ⟨fun a b c d w hnodup => ?words, by decide, quarterWords_injective.bijective_of_finite⟩
  have hwords := quarterRound_getElem_of_nodup hnodup w
  simp only [quarterWords, Prod.mk.injEq] at hwords
  obtain ⟨ha, hb, hc, hd⟩ := hwords
  exact ⟨ha, hb, hc, hd, fun j hj => quarterRound_getElem_of_notMem hj w⟩

/-- A quarter round reads its own four words only: where two arrays agree on those, it writes the same into both. -/
theorem quarterRound_getElem_congr {a b c d j : Fin 16} {w w' : CipherState}
    (hown : ∀ i ∈ [a, b, c, d], w[i] = w'[i]) (hj : w[j] = w'[j]) :
    (quarterRound a b c d w)[j] = (quarterRound a b c d w')[j] := by
  rw [quarterRound_getElem, quarterRound_getElem, hown a (by simp), hown b (by simp), hown c (by simp),
    hown d (by simp), hj]

/-- A quarter round on four indices, in the form the orders of a round are listed in. -/
abbrev quarterRoundAt (w : CipherState) (q : Fin 16 × Fin 16 × Fin 16 × Fin 16) : CipherState :=
  quarterRound q.1 q.2.1 q.2.2.1 q.2.2.2 w

/-- The words `quarterRoundAt _ q` reads and writes. -/
abbrev quarterIndices (q : Fin 16 × Fin 16 × Fin 16 × Fin 16) : List (Fin 16) := [q.1, q.2.1, q.2.2.1, q.2.2.2]

/-- Off the words of `p`, a quarter round `q` on other words does not see that `p` ran. -/
theorem quarterRoundAt_quarterRoundAt_getElem {p q : Fin 16 × Fin 16 × Fin 16 × Fin 16} {j : Fin 16}
    (hdisj : ∀ i ∈ quarterIndices q, i ∉ quarterIndices p) (hj : j ∉ quarterIndices p) (w : CipherState) :
    (quarterRoundAt (quarterRoundAt w p) q)[j] = (quarterRoundAt w q)[j] :=
  quarterRound_getElem_congr (fun i hi => quarterRound_getElem_of_notMem (hdisj i hi) w)
    (quarterRound_getElem_of_notMem hj w)

theorem quarterRoundAt_comm {p q : Fin 16 × Fin 16 × Fin 16 × Fin 16}
    (hdisj : ∀ i ∈ quarterIndices p, i ∉ quarterIndices q) (w : CipherState) :
    quarterRoundAt (quarterRoundAt w p) q = quarterRoundAt (quarterRoundAt w q) p := by
  have hdisj' : ∀ i ∈ quarterIndices q, i ∉ quarterIndices p := fun i hq hp => hdisj i hp hq
  have hwords : ∀ j : Fin 16,
      (quarterRoundAt (quarterRoundAt w p) q)[j] = (quarterRoundAt (quarterRoundAt w q) p)[j] := by
    intro j
    by_cases hj : j ∈ quarterIndices p
    · have hjq : j ∉ quarterIndices q := hdisj j hj
      rw [quarterRoundAt_quarterRoundAt_getElem hdisj hjq]
      exact quarterRound_getElem_of_notMem hjq _
    · rw [quarterRoundAt_quarterRoundAt_getElem hdisj' hj]
      exact (quarterRound_getElem_of_notMem hj _).symm
  exact Vector.ext fun j hj => hwords ⟨j, hj⟩

/-- Quarter rounds that touch pairwise disjoint words may run in any order. -/
theorem foldl_quarterRoundAt_perm {l l' : List (Fin 16 × Fin 16 × Fin 16 × Fin 16)}
    (hdisj : ∀ p ∈ l', ∀ q ∈ l', p ≠ q → ∀ i ∈ quarterIndices p, i ∉ quarterIndices q) (h : l.Perm l')
    (w : CipherState) : l.foldl quarterRoundAt w = l'.foldl quarterRoundAt w := by
  refine (h.symm.foldl_eq' (fun p hp q hq u => ?_) w).symm
  by_cases hpq : p = q
  · rw [hpq]
  · exact quarterRoundAt_comm (hdisj p hp q hq hpq) u

/-- Settles O25: the quarter rounds of one round touch disjoint words, and in R65's own order they are the round. -/
theorem roundsAnyOrder : Obligations.RoundsAnyOrder := by
  unfold Obligations.RoundsAnyOrder
  exact fun l w => ⟨fun h => foldl_quarterRoundAt_perm (by decide) h w,
    fun h => foldl_quarterRoundAt_perm (by decide) h w, rfl⟩

end Sys2Proof.Machine
end

