-- ==== Sys2Proof/Proofs/Keystream.lean ====
section
/-! Blocks, the counter and `GENERATE` (40_cipher_core.md R64, R66 to R68). `GENERATE` is consecutive whole blocks, as
many as cover the length, cut to the length (`generate_eq`); its laws are those of whole blocks. -/

namespace Sys2Proof.Machine

/-! ### The bytes of a block -/

theorem bytesLe32_getElem? (v : Word) {k : Nat} (hk : k < 4) :
    (bytesLe32 v)[k]? = some (v.extractLsb' (8 * k) 8) := by
  match k, hk with
  | 0, _ | 1, _ | 2, _ | 3, _ => rfl

/-- Words laid out four bytes each: byte `4 i + k` is byte `k` of word `i`, where there is a word `i`. -/
theorem flatMap_bytesLe32_getElem? {k : Nat} (hk : k < 4) (ws : List Word) (i : Nat) :
    (ws.flatMap bytesLe32)[4 * i + k]? = ws[i]?.map fun v => v.extractLsb' (8 * k) 8 := by
  induction ws generalizing i with
  | nil => rfl
  | cons v ws ih =>
    rw [List.flatMap_cons]
    cases i with
    | zero =>
      rw [Nat.mul_zero, Nat.zero_add, List.getElem?_append_left (by rwa [bytesLe32_length])]
      exact bytesLe32_getElem? v hk
    | succ i =>
      have hrest : 4 * (i + 1) + k - (bytesLe32 v).length = 4 * i + k := by
        rw [bytesLe32_length]
        omega
      rw [List.getElem?_append_right (by rw [bytesLe32_length]; omega), hrest, ih, List.getElem?_cons_succ]

theorem blockWords_getElem? (x : CipherState) (i : Fin 16) :
    (blockWords x)[i.val]? = some ((rounds 10 x)[i] + x[i]) := by
  rw [blockWords, List.getElem?_zipWith, Vector.getElem?_toList, Vector.getElem?_toList,
    Vector.getElem?_eq_getElem i.isLt, Vector.getElem?_eq_getElem i.isLt]
  rfl

theorem blockBytes_getElem? (x : CipherState) (i : Fin 16) {k : Nat} (hk : k < 4) :
    (blockBytes x)[4 * i.val + k]? = some (((rounds 10 x)[i] + x[i]).extractLsb' (8 * k) 8) := by
  unfold blockBytes
  rw [flatMap_bytesLe32_getElem? hk, blockWords_getElem?, Option.map_some]

/-- Settles O27: a block is its 16 final words, four bytes each. -/
theorem blockSerialization : Obligations.BlockSerialization := by
  unfold Obligations.BlockSerialization
  intro x
  rw [blockTransform_fst]
  exact ⟨blockBytes_length x, fun i _ hk => blockBytes_getElem? x i hk⟩

/-! ### The counter -/

@[simp] theorem counterIncrement_getElem_12 (x : CipherState) : (counterIncrement x)[12] = x[12] + 1 := by
  unfold counterIncrement
  simp only
  split <;> simp

@[simp] theorem counterIncrement_getElem_13 (x : CipherState) :
    (counterIncrement x)[13] = if x[12] + 1 = 0 then x[13] + 1 else x[13] := by
  unfold counterIncrement
  simp only [Vector.getElem_set_self]
  split <;> simp

theorem counterOf_toNat (x : CipherState) : (counterOf x).toNat = 2 ^ 32 * x[13].toNat + x[12].toNat :=
  toNat_append_eq_mul_add x[13] x[12]

/-- The carry out of the low word goes into the high word, and the carry out of the high word is lost. -/
theorem counterOf_counterIncrement (x : CipherState) : counterOf (counterIncrement x) = counterOf x + 1 := by
  apply BitVec.eq_of_toNat_eq
  rw [BitVec.toNat_add, counterOf_toNat, counterOf_toNat, counterIncrement_getElem_12, counterIncrement_getElem_13]
  by_cases hcarry : x[12] + 1 = 0
  · rw [if_pos hcarry]
    bv_omega
  · rw [if_neg hcarry]
    bv_omega

/-- Settles O28: a block transform changes the cipher state by the counter step alone. -/
theorem blockAdvancesCounterOnly : Obligations.BlockAdvancesCounterOnly := by
  unfold Obligations.BlockAdvancesCounterOnly
  intro x
  rw [blockTransform_snd]
  refine ⟨counterIncrement_getElem_12 x, counterIncrement_getElem_13 x, counterOf_counterIncrement x, ?frame⟩
  intro j h12 h13
  exact counterIncrement_getElem_of_ne x j.isLt (Fin.val_ne_of_ne h12) (Fin.val_ne_of_ne h13)

/-! ### Whole blocks -/

theorem counterOf_generateBlocks (n : Nat) (x : CipherState) :
    counterOf (generateBlocks n x).2 = counterOf x + BitVec.ofNat 64 n := by
  induction n generalizing x with
  | zero => simp
  | succ n ih =>
    rw [generateBlocks_succ, ih, counterOf_counterIncrement, BitVec.add_assoc, Nat.add_comm n 1, BitVec.ofNat_add]
    rfl

theorem generateBlocks_add (n k : Nat) (x : CipherState) : generateBlocks (n + k) x =
    ((generateBlocks n x).1 ++ (generateBlocks k (generateBlocks n x).2).1,
      (generateBlocks k (generateBlocks n x).2).2) := by
  induction n generalizing x with
  | zero => simp
  | succ n ih => rw [Nat.add_right_comm, generateBlocks_succ, ih, generateBlocks_succ, List.append_assoc]

theorem generateBlocks_one (x : CipherState) : generateBlocks 1 x = blockTransform x := by
  rw [generateBlocks_succ, generateBlocks_zero, List.append_nil]
  rfl

/-- More blocks leave the bytes of the first `n` blocks as they are. -/
theorem generateBlocks_take_of_le {n k m : Nat} (hnk : n ≤ k) (hm : m ≤ 64 * n) (x : CipherState) :
    (generateBlocks k x).1.take m = (generateBlocks n x).1.take m := by
  rw [← Nat.add_sub_cancel' hnk, generateBlocks_add]
  exact List.take_append_of_le_length (by rwa [generateBlocks_length])

/-! ### `GENERATE` -/

/-- The two branches of `GENERATE` are one: the truncated scratch block is the last of the blocks that
cover the length. -/
theorem generate_eq (n : Nat) (x : CipherState) : generate n x =
    ((generateBlocks ((n + 63) / 64) x).1.take n, (generateBlocks ((n + 63) / 64) x).2) := by
  have hlength : (generateBlocks (n / 64) x).1.length ≤ n := by
    rw [generateBlocks_length]
    omega
  rw [generate]
  split
  next hwhole =>
    have hmod : n % 64 = 0 := hwhole
    have hblocks : (n + 63) / 64 = n / 64 := by omega
    rw [hblocks, List.take_of_length_le hlength]
  next hpartial =>
    have hmod : n % 64 ≠ 0 := hpartial
    have hblocks : (n + 63) / 64 = n / 64 + 1 := by omega
    have hscratch : n - (generateBlocks (n / 64) x).1.length = n % 64 := by
      rw [generateBlocks_length]
      omega
    rw [hblocks, generateBlocks_add, generateBlocks_one, List.take_append, List.take_of_length_le hlength, hscratch]

theorem generate_zero (x : CipherState) : generate 0 x = ([], x) := rfl

/-- Up to one block, `GENERATE` is the truncated next block. -/
theorem generate_of_le_block {n : Nat} (hpos : 0 < n) (hn : n ≤ 64) (x : CipherState) :
    generate n x = ((blockTransform x).1.take n, (blockTransform x).2) := by
  have hblocks : (n + 63) / 64 = 1 := by omega
  rw [generate_eq, hblocks, generateBlocks_one]

/-- From one block on, `GENERATE` is the next block, then the rest from the state it leaves. -/
theorem generate_of_block_le {n : Nat} (hn : 64 ≤ n) (x : CipherState) :
    generate n x = ((blockTransform x).1 ++ (generate (n - 64) (blockTransform x).2).1,
      (generate (n - 64) (blockTransform x).2).2) := by
  have hblocks : (n + 63) / 64 = ((n - 64) + 63) / 64 + 1 := by omega
  rw [generate_eq, hblocks, generateBlocks_succ, List.take_append, blockBytes_length,
    List.take_of_length_le (by rwa [blockBytes_length]), generate_eq]
  rfl

@[simp] theorem generate_length (n : Nat) (x : CipherState) : (generate n x).1.length = n := by
  rw [generate_eq, List.length_take, generateBlocks_length]
  omega

theorem generate_take {m n : Nat} (hmn : m ≤ n) (x : CipherState) : (generate m x).1 = (generate n x).1.take m := by
  rw [generate_eq, generate_eq n, List.take_take, Nat.min_eq_left hmn]
  exact (generateBlocks_take_of_le (by omega) (by omega) x).symm

theorem counterOf_generate (n : Nat) (x : CipherState) :
    counterOf (generate n x).2 = counterOf x + BitVec.ofNat 64 ((n + 63) / 64) := by
  rw [generate_eq]
  exact counterOf_generateBlocks ((n + 63) / 64) x

theorem generate_getElem_of_ne (n : Nat) (x : CipherState) {j : Nat} (hj : j < 16) (h12 : j ≠ 12) (h13 : j ≠ 13) :
    (generate n x).2[j] = x[j] := by
  simp only [generate_eq]
  exact generateBlocks_getElem_of_ne ((n + 63) / 64) hj h12 h13 x

/-- Settles O29, through the one form `generate_eq` of `GENERATE`. -/
theorem generateLengthAndCounter : Obligations.GenerateLengthAndCounter := by
  unfold Obligations.GenerateLengthAndCounter
  intro x n m
  refine ⟨generate_zero x, fun hpos hn => generate_of_le_block hpos hn.le x, fun hn => generate_of_block_le hn x,
    generate_length n x, fun hmn => generate_take hmn x, counterOf_generate n x, ?frame⟩
  intro j h12 h13
  exact generate_getElem_of_ne n x j.isLt (Fin.val_ne_of_ne h12) (Fin.val_ne_of_ne h13)

end Sys2Proof.Machine
end

