-- ==== Sys2Proof/Proofs/GeneratorPolicy.lean ====
section
/-! The generator policy (41_generator_policy.md): what `INIT` loads (R70, R71), what `REKEY` leaves (R72) and what a
`STIR_IF_NEEDED` without a trigger does (R76). -/

namespace Sys2Proof.Machine

/-! ### `INIT` -/

theorem leWordAt_toNat (bs : List Byte) (i : Nat) : (leWordAt bs i).toNat =
    (bs.getD i 0).toNat + 2 ^ 8 * (bs.getD (i + 1) 0).toNat + 2 ^ 16 * (bs.getD (i + 2) 0).toNat +
      2 ^ 24 * (bs.getD (i + 3) 0).toNat := le32_toNat _ _ _ _

/-- `INIT` reads nothing of the cipher state before it: it writes all 16 words. -/
theorem initCipher_congr (seed : List Byte) (x y : CipherState) : initCipher seed x = initCipher seed y := by
  rw [initCipher_eq, initCipher_eq]

theorem initCipher_hasConstants (seed : List Byte) (x : CipherState) : HasConstants (initCipher seed x) := by
  rw [initCipher_eq]
  exact ⟨rfl, rfl, rfl, rfl⟩

theorem initCipher_counterZero (seed : List Byte) (x : CipherState) : CounterZero (initCipher seed x) := by
  rw [initCipher_eq]
  exact ⟨rfl, rfl⟩

theorem initCipher_getElem_key (seed : List Byte) (x : CipherState) {i : Nat} (h : i < 8) :
    (initCipher seed x)[4 + i] = leWordAt seed (4 * i) := by
  rw [← leWordAt_take seed (show 4 * i + 3 < 32 by omega)]
  simp only [initCipher_eq]
  match i, h with
  | 0, _ | 1, _ | 2, _ | 3, _ | 4, _ | 5, _ | 6, _ | 7, _ => rfl

theorem initCipher_getElem_nonce (seed : List Byte) (x : CipherState) {i : Nat} (h : i < 2) :
    (initCipher seed x)[14 + i] = leWordAt seed (32 + 4 * i) := by
  rw [← leWordAt_drop, ← leWordAt_take (seed.drop 32) (show 4 * i + 3 < 8 by omega)]
  simp only [initCipher_eq]
  match i, h with
  | 0, _ | 1, _ => rfl

/-- Settles O30: the constants and the counter as they stand, a key or nonce word by its four seed bytes. -/
theorem initLoadsSeed : Obligations.InitLoadsSeed := by
  unfold Obligations.InitLoadsSeed
  intro seed x _
  refine ⟨initCipher_hasConstants seed x, initCipher_counterZero seed x, fun i h => ?key, fun i h => ?nonce⟩
  case key => rw [initCipher_getElem_key seed x h, leWordAt_toNat]
  case nonce => rw [initCipher_getElem_nonce seed x h, leWordAt_toNat]

/-! ### `REKEY` -/

/-- Reading back the first bytes of what was just written. -/
theorem readBytes_writeBytes (m : Memory) (a : Nat) {bs : List Byte} {n : Nat} (h : n ≤ bs.length) :
    (m.writeBytes a bs).readBytes a n = bs.take n := by
  refine List.ext_getElem (by simpa using h) fun k hk _ => ?_
  have hkn : k < n := by simpa using hk
  rw [readBytes_getElem, readByte_writeBytes_inside (by omega) (by omega), Nat.add_sub_cancel_left,
    List.getD_eq_getElem _ _ (by omega), List.getElem_take]

/-- The seed `REKEY` takes from the refilled buffer: the first 40 keystream bytes, with `extra` mixed in where given. -/
theorem rekeyBuffer_none_readBytes {ks : List Byte} (buf : Memory) (hk : ks.length = 1024) :
    (rekeyBuffer none ks buf).readBytes 0 40 = ks.take 40 :=
  readBytes_writeBytes buf 0 (by omega)

@[inherit_doc rekeyBuffer_none_readBytes]
theorem rekeyBuffer_some_readBytes {e ks : List Byte} (buf : Memory) (hk : ks.length = 1024) (he : e.length = 40) :
    (rekeyBuffer (some e) ks buf).readBytes 0 40 = xorBytes (ks.take 40) e := by
  have hfront : (buf.writeBytes 0 ks).readBytes 0 40 = ks.take 40 := readBytes_writeBytes buf 0 (by omega)
  have hlength : (xorBytes (ks.take 40) e).length = 40 := by simp [hk, he]
  simp only [rekeyBuffer, hfront]
  rw [readBytes_writeBytes _ 0 hlength.ge, List.take_of_length_le hlength.le]

theorem rekey_none_x (s : State) :
    (rekey none s).x = initCipher ((generate Config.bufCap s.x).1.take 40) s.x := by
  rw [rekey_x, rekeyBuffer_none_readBytes s.buf (generate_bufCap_length s.x)]
  exact initCipher_congr _ _ _

theorem rekey_some_x (s : State) {e : List Byte} (he : e.length = 40) :
    (rekey (some e) s).x = initCipher (xorBytes ((generate Config.bufCap s.x).1.take 40) e) s.x := by
  rw [rekey_x, rekeyBuffer_some_readBytes s.buf (generate_bufCap_length s.x) he]
  exact initCipher_congr _ _ _

/-- Settles O32: only the new cipher state depends on whether `extra` is given. -/
theorem rekeyEffect : Obligations.RekeyEffect := by
  unfold Obligations.RekeyEffect
  intro s extra hextra
  refine ⟨fun a h => rekey_readByte_of_lt h, fun a h₁ h₂ => rekey_readByte_of_ge h₁ h₂, ?cipher,
    rekey_haveReg extra s, rekey_count extra s, rekey_creatorPid extra s, rekey_mode extra s, rekey_seq extra s,
    rekey_env extra s⟩
  case cipher =>
    cases extra with
    | none => exact rekey_none_x s
    | some e => exact rekey_some_x s (hextra e rfl)

/-! ### `STIR_IF_NEEDED` without a trigger -/

/-- The sample finds `nextPid`, and none of R74's three conditions holds against it. -/
theorem Settled.not_reseedTriggered {n : Word} {s : State} (h : Settled n s) :
    reseedTriggered n s.sampleLivePid.1 s.sampleLivePid.2 = false := by
  obtain ⟨hmode, hcount, hpid⟩ := h
  have hlive : s.creatorPid = s.sampleLivePid.1 := hpid.trans (sampleLivePid_fst s).symm
  rw [← Bool.not_eq_true, reseedTriggered_iff]
  rintro (huninit | hspent | hforked)
  · rw [sampleLivePid_mode, hmode] at huninit
    contradiction
  · rw [sampleLivePid_count] at hspent
    exact BitVec.not_le.mpr hcount hspent
  · exact hforked ((sampleLivePid_creatorPid s).trans hlive)

theorem stirIfNeeded_of_settled {n : Word} {s : State} (h : Settled n s) :
    stirIfNeeded n s = .done () { s with count := s.count - n, env := s.env.afterSample } := by
  rw [stirIfNeeded_of_not_triggered h.not_reseedTriggered, sampleLivePid_snd]
  rfl

/-- Settles O37: the charge is less than `count`, so the subtraction does not wrap. -/
theorem stirWithoutTriggerCharges : Obligations.StirWithoutTriggerCharges := by
  unfold Obligations.StirWithoutTriggerCharges
  intro s n h
  have ⟨_, hcount, _⟩ := h
  have hlt : n.toNat < s.count.toNat := BitVec.lt_def.mp hcount
  have hcharge : (s.count - n).toNat = s.count.toNat - n.toNat := BitVec.toNat_sub_of_le (BitVec.le_of_lt hcount)
  exact ⟨stirIfNeeded_of_settled h, hcharge, by omega⟩

end Sys2Proof.Machine
end

