-- ==== Sys2Proof/Proofs/PublicApi.lean ====
section
/-! `CONSUME` (42_public_api.md R80) and the rejection threshold of `RANDOM_UNIFORM` (R85). -/

namespace Sys2Proof.Machine

/-! ### `CONSUME` -/

/-- Settles O35: the bytes are read at the effective address `1024 - have` before `consumed` zeroes them. -/
theorem consumeHandsOutAndZeroes : Obligations.ConsumeHandsOutAndZeroes := by
  unfold Obligations.ConsumeHandsOutAndZeroes
  intro s m _ hm hhave
  refine ⟨_, _, consume_eq_consumed hm hhave, readBytes_length _ _ _, fun k hk => ⟨readBytes_getD s.buf hk, ?zeroed⟩,
    fun a ha => consumed_readByte_outside ha, consumed_haveReg_toNat hm, fun hle => ?range, consumed_x m s,
    consumed_count m s, consumed_creatorPid m s, consumed_mode m s, consumed_seq m s, consumed_env m s⟩
  case zeroed => exact consumed_readByte_inside (by omega) (by omega)
  case range => omega

/-! ### The rejection threshold -/

theorem threshold_toNat {bound : Word} (h : 0 < bound.toNat) :
    (threshold bound).toNat = (2 ^ 32 - bound.toNat) % bound.toNat := by
  rw [threshold, BitVec.toNat_umod, BitVec.toNat_neg_of_pos h]

/-- Taking `bound` off the dividend once leaves the remainder as it is (93_implementation_defined.md G5). -/
theorem threshold_toNat_eq_mod {bound : Word} (h : 0 < bound.toNat) :
    (threshold bound).toNat = 2 ^ 32 % bound.toNat := by
  rw [threshold_toNat h]
  exact (Nat.mod_eq_sub_mod bound.isLt.le).symm

theorem threshold_lt {bound : Word} (h : 0 < bound.toNat) : threshold bound < bound :=
  BitVec.umod_lt _ (BitVec.lt_def.mpr h)

/-- The threshold is below `bound` and at most `2 ^ 32 - bound`, so it is below half their sum. -/
theorem threshold_toNat_lt_half {bound : Word} (h : 0 < bound.toNat) : (threshold bound).toNat < 2 ^ 31 := by
  have hbound : (threshold bound).toNat < bound.toNat := BitVec.lt_def.mp (threshold_lt h)
  have hneg : (threshold bound).toNat ≤ 2 ^ 32 - bound.toNat := by
    rw [threshold_toNat h]
    exact Nat.mod_le _ _
  omega

/-- The number of accepted draws is a multiple of `bound`. -/
theorem dvd_sub_threshold {bound : Word} (h : 0 < bound.toNat) : bound.toNat ∣ 2 ^ 32 - (threshold bound).toNat := by
  rw [threshold_toNat_eq_mod h]
  exact Nat.dvd_sub_mod (2 ^ 32)

/-- Settles O54: every clause already holds for a positive `bound`; the twelve values are evaluated. -/
theorem rejectionThreshold : Obligations.RejectionThreshold := by
  unfold Obligations.RejectionThreshold
  refine ⟨fun bound htwo => ?_, by decide⟩
  have hpos : 0 < bound.toNat := Nat.lt_of_lt_of_le Nat.zero_lt_two (BitVec.le_def.mp htwo)
  exact ⟨BitVec.toNat_neg_of_pos hpos, threshold_toNat hpos, threshold_toNat_eq_mod hpos, threshold_lt hpos,
    threshold_toNat_lt_half hpos, dvd_sub_threshold hpos⟩

end Sys2Proof.Machine
end

