-- ==== Sys2Proof/Proofs/Exceptions.lean ====
section
/-! The exceptions (60_exceptions.md): what a failed gather does to the command that asked for it (R92), and that a
halted engine answers and stays until RESET (R94). -/

namespace Sys2Proof.Machine

/-! ### `STIR_IF_NEEDED` with a trigger -/

/-- The trigger test passes on the sample that the `STIR_IF_NEEDED` itself takes. -/
theorem Triggering.reseedTriggered {n : Word} {s : State} (h : Triggering n s) :
    reseedTriggered n s.sampleLivePid.1 s.sampleLivePid.2 = true := by
  have hlive : s.sampleLivePid.1 = s.nextPid := sampleLivePid_fst s
  rw [reseedTriggered_iff, sampleLivePid_mode, sampleLivePid_count, sampleLivePid_creatorPid, hlive]
  rcases h with huninit | ⟨_, hspent | hforked⟩
  · exact .inl huninit
  · exact .inr (.inl hspent)
  · exact .inr (.inr hforked)

theorem Triggering.mode_ne_halted {n : Word} {s : State} (h : Triggering n s) : s.mode ≠ .halted := by
  rcases h with hmode | ⟨hmode, _⟩ <;> simp [hmode]

theorem stirIfNeeded_of_triggering {n : Word} {s : State} (h : Triggering n s) :
    stirIfNeeded n s = awaitEntropy s.nextPid { s with env := s.env.afterRequest } := by
  rw [stirIfNeeded_of_triggered h.reseedTriggered, sampleLivePid_fst, sampleLivePid_snd]
  rfl

/-! ### A gather that fails -/

/-- The state in which a failed gather leaves the engine, with `rest` the answers after the failing one (R92). -/
def State.gatherFailed (rest : List EntAnswer) (s : State) : State :=
  { s with
    mode := .halted
    seq := .responding [] ⟨.errEntropy, 0⟩
    env := { s.env.afterGather rest with logged := s.env.logged ++ [0x01] } }

theorem stirIfNeeded_of_failed_gather {n : Word} {s : State} {a : EntAnswer} {rest : List EntAnswer}
    (h : Triggering n s) (ha : s.env.answers = a :: rest) (hfail : a.fail = true) :
    stirIfNeeded n s = .raised (s.gatherFailed rest) :=
  (stirIfNeeded_of_triggering h).trans (awaitEntropy_fail s.nextPid { s with env := s.env.afterRequest } ha hfail)

/-- Every command that draws bytes is its first `STIR_IF_NEEDED` followed by the tail it also resumes with. -/
theorem exec_eq_stirIfNeeded_andThen_tailOf {i : Instr} {n : Word} {s : State} (hn : firstRequest i = some n)
    (hs : s.mode ≠ .halted) : exec i s = finish i ((stirIfNeeded n s).andThen fun _ t => tailOf i t) := by
  cases i with
  | randomU32 =>
    obtain rfl : 4 = n := Option.some.inj hn
    exact runUnlessHalted_of_ne hs _
  | randomFill len =>
    obtain rfl : len = n := Option.some.inj hn
    exact runUnlessHalted_of_ne hs _
  | randomUniform bound =>
    obtain ⟨hbound, rfl⟩ : ¬ bound < 2 ∧ 4 = n := by simpa [firstRequest] using hn
    have hloop : uniformLoop (drawBound s) bound s =
        (stirIfNeeded 4 s).andThen fun _ t => tailOf (.randomUniform bound) t := by
      rw [uniformLoop_unfold, nextU32, andThen_assoc]
      rfl
    calc exec (.randomUniform bound) s
        = finish (.randomUniform bound)
            (if bound < 2 then .done ⟨0, []⟩ s else uniformLoop (drawBound s) bound s) := runUnlessHalted_of_ne hs _
      _ = _ := by rw [if_neg hbound, hloop]

/-- Settles O40: the raise passes through everything that would follow the `STIR_IF_NEEDED`. -/
theorem entropyFailureHalts : Obligations.EntropyFailureHalts := by
  unfold Obligations.EntropyFailureHalts
  intro s n a rest h ha hfail t
  have hraise : stirIfNeeded n s = .raised t := stirIfNeeded_of_failed_gather h ha hfail
  refine ⟨fun k => by rw [hraise, andThen_raised], fun cmd => rfl, fun i hn => ?command⟩
  case command =>
    rw [exec_eq_stirIfNeeded_andThen_tailOf hn h.mode_ne_halted, hraise, andThen_raised]
    rfl

/-! ### A halted engine -/

theorem step_of_reset {s : State} (h : s.env.resetPin = true) : step s = .next s.applyReset := by
  simp [step, h]

theorem step_of_accept {s : State} {w : CmdWord} {rest : List CmdWord} (hpin : s.env.resetPin = false)
    (hidle : s.seq = .idle) (hcommands : s.env.commands = w :: rest) :
    step s = deliverOutcome (dispatch w (s.accept rest)) := by
  simp [step, hpin, hidle, hcommands]

theorem step_halted_of_accept {s : State} {w : CmdWord} {rest : List CmdWord} (hmode : s.mode = .halted)
    (hpin : s.env.resetPin = false) (hidle : s.seq = .idle) (hcommands : s.env.commands = w :: rest) :
    step s = .next (s.accept rest).answerHalted.deliver := by
  have haccepted : (s.accept rest).mode = .halted := (accept_mode s rest).trans hmode
  rw [step_of_accept hpin hidle hcommands, dispatch_halted haccepted, deliverOutcome_next]

/-- A halted engine is never blocked in a gather, so without RESET its step only hands over what is on the ports, after
answering a presented word if it is idle. -/
theorem step_halted_cases {s : State} (hinv : Inv s) (hmode : s.mode = .halted) (hpin : s.env.resetPin = false) :
    step s = .next s.deliver ∨ ∃ rest, step s = .next (s.accept rest).answerHalted.deliver := by
  rcases step_cases s with ⟨hreset, _⟩ | ⟨_, _, hstep⟩ | ⟨_, cmd, live, hwait, _⟩ | ⟨_, hidle, _, hstep⟩ |
    ⟨_, hidle, w, rest, hcommands, _⟩
  · rw [hpin] at hreset
    contradiction
  · exact .inl hstep
  · have hseq := hinv.sequencer
    rw [SequencerInv, hwait] at hseq
    obtain ⟨hnot, _⟩ := hseq
    exact absurd hmode hnot
  · exact .inl (by rw [hstep, deliver_of_idle s hidle])
  · exact .inr ⟨rest, step_halted_of_accept hmode hpin hidle hcommands⟩

/-- Settles O8: the answer to a word and the host's transfers touch the response and the ports alone. -/
theorem haltedAnswersAndStays : Obligations.HaltedAnswersAndStays := by
  unfold Obligations.HaltedAnswersAndStays
  refine ⟨fun s w hmode => dispatch_halted hmode, ?answered, ?stays, ?reset⟩
  case answered =>
    intro s w rest hmode hpin hidle hcommands htakes
    have hready := deliver_of_ready (s.accept rest).answerHalted (answerHalted_seq _) htakes
    rw [step_halted_of_accept hmode hpin hidle hcommands, hready]
    simp [hidle, transfers]
  case stays =>
    intro s t hinv hmode hpin hstep
    rcases step_halted_cases hinv hmode hpin with hdeliver | ⟨rest, hanswer⟩
    · obtain rfl : s.deliver = t := Host.Outcome.next.inj (hdeliver.symm.trans hstep)
      simp [hmode]
    · obtain rfl : (s.accept rest).answerHalted.deliver = t := Host.Outcome.next.inj (hanswer.symm.trans hstep)
      simp [hmode]
  case reset =>
    intro s t hpin hstep
    obtain rfl : s.applyReset = t := Host.Outcome.next.inj ((step_of_reset hpin).symm.trans hstep)
    exact applyReset_mode s

end Sys2Proof.Machine
end

