-- ==== Sys2Proof/Proofs/Encoding.lean ====
section
/-! Command words and their texts (30_encoding.md R45 to R47, R56). A word is its two fields, so decoder and encoder
undo each other field by field; a printed line is read back word by word and its number digit by digit. -/

namespace Sys2Proof

open Laws.EncodesLegalWord

/-! ### Words -/

theorem decode_encode (i : Instr) : decode (encode i) = .ok i := by
  cases i with
  | randomU32 => exact decode_randomU32 (op_assemble _ _)
  | randomFill len => rw [encode, decode_randomFill (op_assemble _ _), arg_assemble]
  | randomUniform bound => rw [encode, decode_randomUniform (op_assemble _ _), arg_assemble]

/-- Settles O1: the encoder puts the two fields where the decoder reads them. -/
theorem decodeEncodeRoundTrip : Obligations.DecodeEncodeRoundTrip := by
  unfold Obligations.DecodeEncodeRoundTrip
  exact fun i _ => decode_encode i

/-- What a word that decodes to a command is made of. -/
theorem fields_of_decode {w : CmdWord} {i : Instr} (h : decode w = .ok i) :
    (w.op = 0x01 ∧ i = .randomU32) ∨ (w.op = 0x02 ∧ i = .randomFill w.arg) ∨
      (w.op = 0x03 ∧ i = .randomUniform w.arg) := by
  have hop : w.op ∈ [0x01, 0x02, 0x03] := (decode_accepts_iff_op w).mp ⟨i, h⟩
  simp only [List.mem_cons, List.not_mem_nil, or_false] at hop
  rcases hop with hU32 | hFill | hUniform
  · exact .inl ⟨hU32, Except.ok.inj (h.symm.trans (decode_randomU32 hU32))⟩
  · exact .inr (.inl ⟨hFill, Except.ok.inj (h.symm.trans (decode_randomFill hFill))⟩)
  · exact .inr (.inr ⟨hUniform, Except.ok.inj (h.symm.trans (decode_randomUniform hUniform))⟩)

/-- Settles O2: where the command carries ARG, its word is put together from the fields it was read from. -/
theorem encodeDecodeCanonical : Obligations.EncodeDecodeCanonical := by
  unfold Obligations.EncodeDecodeCanonical
  intro w i h
  rcases fields_of_decode h with ⟨_, rfl⟩ | ⟨hop, rfl⟩ | ⟨hop, rfl⟩
  · rfl
  · rw [if_neg (by simp), encode, ← hop, CmdWord.assemble_op_arg]
  · rw [if_neg (by simp), encode, ← hop, CmdWord.assemble_op_arg]

/-- Settles O4, by evaluation of the eleven rows. -/
theorem decodeSampleWords : Obligations.DecodeSampleWords := by
  unfold Obligations.DecodeSampleWords
  decide

end Sys2Proof

namespace Sys2Proof.Machine.Text

/-! ### The words of a line -/

/-- Characters that are neither a blank nor the start of a comment. -/
def Solid (cs : List Char) : Prop := ∀ c ∈ cs, isBlank c = false ∧ c ≠ ';'

/-- Solid characters join the word being read. -/
theorem foldr_wordsStep_of_solid {cs : List Char} (h : Solid cs) (acc : List Char × List (List Char)) :
    cs.foldr wordsStep acc = (cs ++ acc.1, acc.2) := by
  induction cs with
  | nil => rfl
  | cons c cs ih =>
    have hc := (h c List.mem_cons_self).1
    rw [List.foldr_cons, ih fun d hd => h d (List.mem_cons_of_mem c hd)]
    simp [wordsStep, hc]

theorem words_pair {cs ds : List Char} (hc : Solid cs) (hd : Solid ds) (hcne : cs ≠ []) (hdne : ds ≠ []) :
    words (cs ++ ' ' :: ds) = [cs, ds] := by
  have hscan : (cs ++ ' ' :: ds).foldr wordsStep ([], []) = (cs, [ds]) := by
    rw [List.foldr_append, List.foldr_cons, foldr_wordsStep_of_solid hd, foldr_wordsStep_of_solid hc]
    simp [wordsStep, isBlank, hdne]
  simp [words, hscan, hcne]

theorem dropComment_eq_self {line : List Char} (h : ∀ c ∈ line, c ≠ ';') : dropComment line = line := by
  simpa [dropComment] using h

theorem parseLine_pair {cs ds : List Char} (hc : Solid cs) (hd : Solid ds) (hcne : cs ≠ []) (hdne : ds ≠ []) :
    parseLine (cs ++ ' ' :: ds) = parseWords [cs, ds] := by
  have hline : ∀ c ∈ cs ++ ' ' :: ds, c ≠ ';' := by
    intro c hmem
    rcases List.mem_append.mp hmem with h | h
    · exact (hc c h).2
    · rcases List.mem_cons.mp h with rfl | h
      · decide
      · exact (hd c h).2
  rw [parseLine, dropComment_eq_self hline, words_pair hc hd hcne hdne]

/-! ### Printed numbers -/

theorem digitValue_hexDigit : ∀ n < 16, digitValue (hexDigit n) = some n := by decide

theorem solid_hexDigit : ∀ n < 16, isBlank (hexDigit n) = false ∧ hexDigit n ≠ ';' := by decide

/-- The digits of a number are read back by Horner's rule. -/
theorem digits_map_hexDigit {ns : List Nat} (h : ∀ n ∈ ns, n < 16) (acc : Nat) :
    digits 16 acc (ns.map hexDigit) = some (ns.foldl (fun a n => a * 16 + n) acc) := by
  induction ns generalizing acc with
  | nil => rfl
  | cons n ns ih =>
    have hn : n < 16 := h n List.mem_cons_self
    rw [List.map_cons, digits, digitValue_hexDigit n hn]
    simp only [if_pos hn]
    exact ih (fun m hm => h m (List.mem_cons_of_mem n hm)) _

/-- The eight digits of a word, most significant first. -/
def hexDigits (v : Word) : List Nat := [7, 6, 5, 4, 3, 2, 1, 0].map fun i => v.toNat / 16 ^ i % 16

theorem hexDigits_lt (v : Word) : ∀ n ∈ hexDigits v, n < 16 := by
  intro n hn
  obtain ⟨i, _, rfl⟩ := List.mem_map.mp hn
  exact Nat.mod_lt _ (by decide)

theorem foldl_hexDigits (v : Word) : (hexDigits v).foldl (fun a n => a * 16 + n) 0 = v.toNat := by
  have := v.isLt
  simp only [hexDigits, List.map_cons, List.map_nil, List.foldl_cons, List.foldl_nil]
  omega

theorem printWord_eq (v : Word) : printWord v = '0' :: 'x' :: (hexDigits v).map hexDigit := by
  simp only [printWord, hexDigits, List.map_map]
  rfl

theorem printWord_ne_nil (v : Word) : printWord v ≠ [] := by simp [printWord]

theorem solid_printWord (v : Word) : Solid (printWord v) := by
  rw [printWord_eq]
  intro c hc
  rcases List.mem_cons.mp hc with rfl | hc
  · decide
  rcases List.mem_cons.mp hc with rfl | hc
  · decide
  obtain ⟨n, hn, rfl⟩ := List.mem_map.mp hc
  exact solid_hexDigit n (hexDigits_lt v n hn)

theorem number_printWord (v : Word) : number (printWord v) = some v.toNat := by
  have hdigits := digits_map_hexDigit (hexDigits_lt v) 0
  rw [foldl_hexDigits] at hdigits
  rw [printWord_eq]
  exact hdigits

theorem argument_printWord (v : Word) : argument (printWord v) = some v := by
  simp [argument, number_printWord, v.isLt]

/-! ### Printed commands -/

theorem solid_namesFill : Solid (namesFill.headD []) := by
  simp [Solid, namesFill, isBlank]

theorem solid_namesUniform : Solid (namesUniform.headD []) := by
  simp [Solid, namesUniform, isBlank]

/-- Settles O5: each name stands in the list the parser looks it up in, and the printed argument reads back. -/
theorem textStandsForWord : Obligations.TextStandsForWord := by
  unfold Obligations.TextStandsForWord
  intro i
  cases i with
  | randomU32 => decide
  | randomFill len =>
    rw [printInstr, parseLine_pair solid_namesFill (solid_printWord len) (by decide) (printWord_ne_nil len)]
    simp [parseWords, argument_printWord, namesFill]
  | randomUniform bound =>
    rw [printInstr, parseLine_pair solid_namesUniform (solid_printWord bound) (by decide) (printWord_ne_nil bound)]
    simp [parseWords, argument_printWord, namesFill, namesUniform]

end Sys2Proof.Machine.Text
end

