-- ==== Sys2Proof/Proofs/Buffer.lean ====
section
/-! The buffer as data: a canonical memory is settled by its reads (20_memory.md R30), so states that read alike are
equal. `REKEY` with zero bytes (41_generator_policy.md R72) and `CONSUME` in pieces (20_memory.md R34, R36) follow. -/

namespace Sys2Proof.Machine

/-! ### Equal reads, equal memory -/

/-- A canonical memory lists exactly the non-zero bytes it reads as. -/
theorem mem_iff_readByte {m : Memory} (h : m.wf) (c : Host.Cell) : c ∈ m ↔ m.readByte c.1 = c.2 ∧ c.2 ≠ 0 := by
  obtain ⟨hrising, hcells⟩ := h
  constructor
  · intro hc
    obtain ⟨pre, post, rfl⟩ := List.append_of_mem hc
    have hbefore : ∀ d ∈ pre, d.1 ≠ c.1 := fun d hd =>
      ((List.pairwise_append.mp hrising).2.2 d hd c List.mem_cons_self).ne
    rw [readByte_append_of_not_mem hbefore, readByte_cons, if_pos rfl]
    exact ⟨rfl, (hcells c hc).2⟩
  · rintro ⟨hread, hne⟩
    by_cases hlisted : ∃ d ∈ m, d.1 = c.1
    · obtain ⟨d, hd, haddr⟩ := hlisted
      have hfound : (m.find? fun e => e.1 == c.1).isSome := by
        rw [List.find?_isSome]
        exact ⟨d, hd, by simp [haddr]⟩
      obtain ⟨e, he⟩ := Option.isSome_iff_exists.mp hfound
      have hvalue : e.2 = c.2 := by rw [← hread, Memory.readByte, he]
      have haddr : e.1 = c.1 := by simpa using List.find?_some he
      have hcell : e = c := Prod.ext haddr hvalue
      exact hcell ▸ List.mem_of_find?_eq_some he
    · push Not at hlisted
      exact absurd (hread.symm.trans (readByte_of_not_mem hlisted)) hne

theorem readByte_of_ge {m : Memory} (h : m.wf) {a : Nat} (ha : 1024 ≤ a) : m.readByte a = 0 := by
  refine readByte_of_not_mem fun c hc => ?_
  have hlt : c.1 < 1024 := (h.2 c hc).1
  omega

/-- Two rising lists of the same cells are the same list. -/
theorem eq_of_readByte_eq {m n : Memory} (hm : m.wf) (hn : n.wf)
    (h : ∀ a, a < 1024 → m.readByte a = n.readByte a) : m = n := by
  have hread : ∀ a, m.readByte a = n.readByte a := by
    intro a
    by_cases ha : a < 1024
    · exact h a ha
    · rw [readByte_of_ge hm (by omega), readByte_of_ge hn (by omega)]
  have hnodup : ∀ {l : Memory}, l.wf → l.Nodup := fun hl =>
    hl.1.imp fun hlt heq => (lt_irrefl _ (heq ▸ hlt)).elim
  have hperm : m.Perm n := (List.perm_ext_iff_of_nodup (hnodup hm) (hnodup hn)).mpr fun c => by
    rw [mem_iff_readByte hm, mem_iff_readByte hn, hread]
  exact hperm.eq_of_pairwise (fun c d _ _ hcd hdc => absurd hdc (lt_asymm hcd)) hm.1 hn.1

/-- Settles O34. -/
theorem equalReadsEqualMemory : Obligations.EqualReadsEqualMemory := by
  unfold Obligations.EqualReadsEqualMemory
  exact fun m n hm hn h => eq_of_readByte_eq hm hn h

/-! ### `REKEY` -/

theorem writeBytes_readBytes {m : Memory} {a n : Nat} (h : m.wf) (hn : a + n ≤ 1024) :
    m.writeBytes a (m.readBytes a n) = m := by
  refine eq_of_readByte_eq (writeBytes_wf h (by simpa using hn)) h fun i _ => ?_
  by_cases hi : a ≤ i ∧ i < a + n
  · rw [readByte_writeBytes_inside hi.1 (by simpa using hi.2), readBytes_getD m (by omega), Nat.add_sub_cancel' hi.1]
  · exact readByte_writeBytes_outside (by rw [readBytes_length]; omega)

theorem xorBytes_replicate_zero {bs : List Byte} {n : Nat} (h : bs.length = n) :
    xorBytes bs (List.replicate n 0) = bs := by
  refine List.ext_getElem (by simp [h]) fun k _ _ => ?_
  simp [xorBytes]

theorem rekeyBuffer_some_zeros {ks : List Byte} {buf : Memory} (hb : buf.wf) (hk : ks.length = 1024) :
    rekeyBuffer (some (List.replicate 40 0)) ks buf = rekeyBuffer none ks buf := by
  have hfull : (buf.writeBytes 0 ks).wf := writeBytes_wf hb (by omega)
  simp only [rekeyBuffer, xorBytes_replicate_zero (readBytes_length _ 0 40)]
  exact writeBytes_readBytes hfull (by decide)

/-- Settles O33: mixing zeros in rewrites the bytes that are there, and the refill covers the whole old buffer. -/
theorem rekeyIgnoresZeroExtraAndOldBuffer : Obligations.RekeyIgnoresZeroExtraAndOldBuffer := by
  unfold Obligations.RekeyIgnoresZeroExtraAndOldBuffer
  intro s extra b h hs hb
  refine ⟨?zeros, rekey_congr hb hs rfl rfl rfl rfl rfl rfl⟩
  case zeros => simp only [rekey, rekeyBuffer_some_zeros hs (generate_bufCap_length s.x)]

/-! ### `CONSUME` -/

theorem zeros_append (m n : Nat) : zeros m ++ zeros n = zeros (m + n) := List.replicate_append_replicate

/-- Two writes one after the other are one write of both. -/
theorem writeBytes_writeBytes {m : Memory} {a : Nat} {bs cs : List Byte} (h : m.wf)
    (hlen : a + bs.length + cs.length ≤ 1024) :
    (m.writeBytes a bs).writeBytes (a + bs.length) cs = m.writeBytes a (bs ++ cs) := by
  have hone : (m.writeBytes a bs).wf := writeBytes_wf h (by omega)
  refine eq_of_readByte_eq (writeBytes_wf hone hlen) (writeBytes_wf h (by simp; omega)) fun i _ => ?_
  by_cases hcs : a + bs.length ≤ i ∧ i < a + bs.length + cs.length
  · rw [readByte_writeBytes_inside hcs.1 hcs.2, readByte_writeBytes_inside (by omega) (by simp; omega),
      List.getD_append_right _ _ _ _ (by omega)]
    congr 1
    omega
  rw [readByte_writeBytes_outside (by omega)]
  by_cases hbs : a ≤ i ∧ i < a + bs.length
  · rw [readByte_writeBytes_inside hbs.1 hbs.2, readByte_writeBytes_inside hbs.1 (by simp; omega),
      List.getD_append _ _ _ _ (by omega)]
  · rw [readByte_writeBytes_outside (by omega), readByte_writeBytes_outside (by simp; omega)]

/-- The first piece moves the effective address on to where the second begins. -/
theorem consumed_consumed {m n : Nat} {s : State} (hmn : m + n ≤ s.haveReg.toNat) (hh : s.haveReg.toNat ≤ 1024)
    (hw : s.buf.wf) : consumed n (consumed m s) = consumed (m + n) s := by
  have haddr : 1024 - (consumed m s).haveReg.toNat = 1024 - s.haveReg.toNat + (zeros m).length := by
    rw [consumed_haveReg_toNat (by omega), zeros_length]
    omega
  have hbuf : (consumed n (consumed m s)).buf = (consumed (m + n) s).buf := by
    unfold consumed at haddr ⊢
    simp only [haddr]
    rw [writeBytes_writeBytes hw (by simp; omega), zeros_append]
  have hhave : (consumed n (consumed m s)).haveReg = (consumed (m + n) s).haveReg := by
    apply BitVec.eq_of_toNat_eq
    rw [consumed_haveReg_toNat (by rw [consumed_haveReg_toNat (by omega)]; omega), consumed_haveReg_toNat (by omega),
      consumed_haveReg_toNat hmn]
    omega
  unfold consumed at hbuf hhave ⊢
  simp only at hbuf hhave ⊢
  rw [hbuf, hhave]

/-- Settles O36: the second piece reads past the bytes that the first has zeroed. -/
theorem consumeInPieces : Obligations.ConsumeInPieces := by
  unfold Obligations.ConsumeInPieces
  intro s m n hmn hh hw
  have hhave : (consumed m s).haveReg.toNat = s.haveReg.toNat - m := consumed_haveReg_toNat (by omega)
  have haddr : 1024 - (consumed m s).haveReg.toNat = 1024 - s.haveReg.toNat + m := by omega
  have hread : (consumed m s).buf.readBytes (1024 - s.haveReg.toNat + m) n =
      s.buf.readBytes (1024 - s.haveReg.toNat + m) n :=
    readBytes_congr fun i hi _ => consumed_readByte_outside (.inr hi)
  rw [consume_eq_consumed hmn hh, consume_eq_consumed (by omega) hh, andThen_done,
    consume_eq_consumed (by omega) (by omega), andThen_done, haddr, hread, readBytes_add, consumed_consumed hmn hh hw]

end Sys2Proof.Machine
end

