-- ==== Sys2Proof/Proofs/Reseed.lean ====
section
/-! `STIR_IF_NEEDED` (41_generator_policy.md R74 to R79): what an answered gather leaves, and how long the budget
lasts. -/

namespace Sys2Proof.Machine

/-! ### A triggered `STIR_IF_NEEDED` by its answer -/

theorem settled_or_triggering {s : State} (n : Word) (h : s.mode ≠ .halted) : Settled n s ∨ Triggering n s := by
  cases hmode : s.mode with
  | uninit => exact .inr (.inl hmode)
  | halted => exact absurd hmode h
  | seeded =>
    by_cases hcount : n < s.count
    · by_cases hpid : s.creatorPid = s.nextPid
      · exact .inl ⟨hmode, hcount, hpid⟩
      · exact .inr (.inr ⟨hmode, .inr hpid⟩)
    · exact .inr (.inr ⟨hmode, .inl (BitVec.not_lt.mp hcount)⟩)

theorem Settled.mode_ne_halted {n : Word} {s : State} (h : Settled n s) : s.mode ≠ .halted := by
  simp [h.1]

/-- The state that an answered gather leaves, with `rest` the answers after the one it took (R75). -/
def State.reseeded (a : EntAnswer) (rest : List EntAnswer) (s : State) : State :=
  reseedFrom s.nextPid a.seed { s with env := s.env.afterGather rest }

section reseeded

variable (a : EntAnswer) (rest : List EntAnswer) (s : State)

@[simp] theorem reseeded_haveReg : (s.reseeded a rest).haveReg = 0 := rfl
@[simp] theorem reseeded_count : (s.reseeded a rest).count = 1600000 := rfl
@[simp] theorem reseeded_creatorPid : (s.reseeded a rest).creatorPid = s.nextPid := rfl
@[simp] theorem reseeded_mode : (s.reseeded a rest).mode = .seeded := rfl
@[simp] theorem reseeded_seq : (s.reseeded a rest).seq = s.seq := reseedFrom_seq _ _ _
@[simp] theorem reseeded_env : (s.reseeded a rest).env = s.env.afterGather rest := reseedFrom_env _ _ _

theorem reseeded_x : (s.reseeded a rest).x =
    if s.mode = .uninit then initCipher a.seed s.x else (rekey (some a.seed) s).x := by
  split
  next h => exact reseedFrom_x_uninit _ _ _ h
  next h => exact reseedFrom_x_seeded _ _ _ h

theorem reseeded_buf : (s.reseeded a rest).buf = if s.mode = .uninit then s.buf else (rekey (some a.seed) s).buf := by
  split
  next h => exact reseedFrom_buf_uninit _ _ _ h
  next h => exact reseedFrom_buf_seeded _ _ _ h

end reseeded

theorem reseeded_wf {s : State} (a : EntAnswer) (rest : List EntAnswer) (h : s.buf.wf) :
    (s.reseeded a rest).buf.wf := by
  rw [reseeded_buf]
  split
  · exact h
  · exact rekey_wf h

theorem stirIfNeeded_of_unanswered_gather {n : Word} {s : State} (h : Triggering n s) (ha : s.env.answers = []) :
    stirIfNeeded n s = .blocked s.nextPid { s with env := s.env.afterRequest } :=
  (stirIfNeeded_of_triggering h).trans (awaitEntropy_nil _ _ ha)

theorem stirIfNeeded_of_answered_gather {n : Word} {s : State} {a : EntAnswer} {rest : List EntAnswer}
    (h : Triggering n s) (ha : s.env.answers = a :: rest) (hok : a.fail = false) :
    stirIfNeeded n s = .done () (s.reseeded a rest) :=
  (stirIfNeeded_of_triggering h).trans (awaitEntropy_ok _ { s with env := s.env.afterRequest } ha hok)

theorem seed_getElem? (a : EntAnswer) {i : Nat} (hi : i < 40) :
    a.seed[i]? = some (a.data.extractLsb' (8 * i) 8) := by
  rw [EntAnswer.seed, List.getElem?_map, List.getElem?_range hi, Option.map_some]

/-- Settles O38: the fields of the reseeded state, one by one. -/
theorem stirWithTriggerReseeds : Obligations.StirWithTriggerReseeds := by
  unfold Obligations.StirWithTriggerReseeds
  intro s n a rest h ha hok
  refine ⟨s.reseeded a rest, stirIfNeeded_of_answered_gather h ha hok, seed_length a, fun i hi => seed_getElem? a hi,
    fun hmode => ?uninit, fun hmode => ?seeded, reseeded_count a rest s, reseeded_haveReg a rest s,
    reseeded_creatorPid a rest s, reseeded_mode a rest s, reseeded_seq a rest s, reseeded_env a rest s⟩
  case uninit => rw [reseeded_x, reseeded_buf, if_pos hmode, if_pos hmode]; exact ⟨rfl, rfl⟩
  case seeded =>
    have hne : s.mode ≠ .uninit := by simp [hmode]
    rw [reseeded_x, reseeded_buf, if_neg hne, if_neg hne]
    exact ⟨rfl, rfl⟩

/-! ### The budget -/

/-- The state in which a `STIR_IF_NEEDED(n)` without a trigger leaves the engine (R76). -/
def State.charged (n : Word) (s : State) : State := { s with count := s.count - n, env := s.env.afterSample }

theorem stirIfNeeded_eq_charged {n : Word} {s : State} (h : Settled n s) :
    stirIfNeeded n s = .done () (s.charged n) := stirIfNeeded_of_settled h

theorem charged_count_toNat {n : Word} {s : State} (h : n < s.count) :
    (s.charged n).count.toNat = s.count.toNat - n.toNat := BitVec.toNat_sub_of_le (BitVec.le_of_lt h)

/-- A seeded engine whose identity is its creator's and does not change. -/
def SteadyIdentity (s : State) : Prop :=
  s.mode = .seeded ∧ s.env.pidSamples = [] ∧ s.env.livePid = s.creatorPid

theorem SteadyIdentity.nextPid {s : State} (h : SteadyIdentity s) : s.nextPid = s.creatorPid := by
  obtain ⟨_, hsamples, hlive⟩ := h
  rw [State.nextPid, hsamples, List.headD_nil, hlive]

theorem SteadyIdentity.charged {s : State} (n : Word) (h : SteadyIdentity s) : SteadyIdentity (s.charged n) := by
  have hpid := h.nextPid
  obtain ⟨hmode, hsamples, _⟩ := h
  refine ⟨hmode, ?samples, hpid⟩
  case samples => simp [State.charged, Env.afterSample, hsamples]

/-- Every end of a triggered `STIR_IF_NEEDED` has raised its request. -/
theorem stirsWithoutGather_of_triggering {n : Word} {ns : List Word} {s : State} (h : Triggering n s) :
    stirsWithoutGather (n :: ns) s = none := by
  rw [stirsWithoutGather]
  cases ha : s.env.answers with
  | nil => rw [stirIfNeeded_of_unanswered_gather h ha]
  | cons a rest =>
    cases hok : a.fail with
    | false =>
      rw [stirIfNeeded_of_answered_gather h ha hok]
      simp [Env.afterGather, Env.afterRequest, Env.afterSample]
    | true => rw [stirIfNeeded_of_failed_gather h ha hok]

theorem stirsWithoutGather_of_settled {n : Word} {ns : List Word} {s : State} (h : Settled n s) :
    stirsWithoutGather (n :: ns) s = stirsWithoutGather ns (s.charged n) := by
  rw [stirsWithoutGather, stirIfNeeded_eq_charged h]
  exact if_pos rfl

/-- The runs go on exactly as long as each length is less than what is left of the budget. -/
theorem stirsWithoutGather_budget {ns : List Word} {s : State} (h : SteadyIdentity s) (hpos : 0 < s.count.toNat) :
    ((∃ t, stirsWithoutGather ns s = some t) ↔ (ns.map BitVec.toNat).sum < s.count.toNat) ∧
      ∀ t, stirsWithoutGather ns s = some t → t.count.toNat = s.count.toNat - (ns.map BitVec.toNat).sum := by
  induction ns generalizing s with
  | nil => simp [stirsWithoutGather, hpos]
  | cons n ns ih =>
    rw [List.map_cons, List.sum_cons]
    by_cases hcount : n < s.count
    · have hlt : n.toNat < s.count.toNat := BitVec.lt_def.mp hcount
      have hleft : (s.charged n).count.toNat = s.count.toNat - n.toNat := charged_count_toNat hcount
      obtain ⟨hiff, hval⟩ := ih (h.charged n) (by omega)
      rw [stirsWithoutGather_of_settled ⟨h.1, hcount, h.nextPid.symm⟩, hiff]
      refine ⟨by omega, fun t ht => ?_⟩
      rw [hval t ht]
      omega
    · have hle : s.count.toNat ≤ n.toNat := BitVec.le_def.mp (BitVec.not_lt.mp hcount)
      have htrigger : Triggering n s := .inr ⟨h.1, .inl (BitVec.not_lt.mp hcount)⟩
      simp [stirsWithoutGather_of_triggering htrigger]
      omega

/-- Settles O39: the budget rule at a full budget. -/
theorem reseedAtBudgetBoundary : Obligations.ReseedAtBudgetBoundary := by
  unfold Obligations.ReseedAtBudgetBoundary
  intro s ns hmode hcount hsamples hlive
  have hfull : s.count.toNat = 1600000 := by rw [hcount]; rfl
  have hbudget := stirsWithoutGather_budget (ns := ns) ⟨hmode, hsamples, hlive⟩ (by omega)
  rwa [hfull] at hbudget

end Sys2Proof.Machine
end

