-- ==== Sys2Proof/Proofs/Draws.lean ====
section
/-! A draw of one word (42_public_api.md R81) in its three ways, from the buffer, after `REKEY(none)` and after an
answered reseed, and the commands that answer from draws: `RANDOM_U32` and `RANDOM_UNIFORM` (R84, R86). -/

namespace Sys2Proof.Machine

/-! ### The word and the frame of a draw -/

theorem leWordAt_readBytes (m : Memory) (a : Nat) : leWordAt (m.readBytes a 4) 0 =
    le32 (m.readByte a) (m.readByte (a + 1)) (m.readByte (a + 2)) (m.readByte (a + 3)) := by
  simp [leWordAt, Memory.readBytes, List.range']

theorem drawWord_of_unread {s : State} (h4 : 4 ≤ s.haveReg.toNat) (hh : s.haveReg.toNat ≤ 1024) :
    drawWord s = .done (leWordAt (s.buf.readBytes (1024 - s.haveReg.toNat) 4) 0) (consumed 4 s) := by
  have hready : readyToDraw s = s := if_neg (by rw [BitVec.lt_def]; exact Nat.not_lt.mpr h4)
  rw [drawWord_eq hh, hready]

/-- The first four unread bytes after `REKEY(none)` are keystream bytes 40 to 43. -/
theorem drawWord_of_refill {s : State} (h : s.haveReg.toNat < 4) :
    drawWord s = .done (leWordAt (generate 1024 s.x).1 40) (consumed 4 (rekey none s)) := by
  have hready : readyToDraw s = rekey none s := if_pos (BitVec.lt_def.mpr h)
  have hkeystream : ∀ a, 40 ≤ a → a < 1024 → (rekey none s).buf.readByte a = (generate 1024 s.x).1.getD a 0 :=
    fun a h₁ h₂ => rekey_readByte_of_ge h₁ h₂
  have hword : leWordAt ((rekey none s).buf.readBytes 40 4) 0 = leWordAt (generate 1024 s.x).1 40 := by
    rw [leWordAt_readBytes, hkeystream 40 (by decide) (by decide), hkeystream 41 (by decide) (by decide),
      hkeystream 42 (by decide) (by decide), hkeystream 43 (by decide) (by decide)]
    rfl
  rw [drawWord_eq (by omega), hready, ← hword]
  rfl

/-- Four bytes taken after `REKEY(none)`: the wipe covers bytes 0 to 43, the rest is keystream. -/
theorem consumed_rekey_frame (s : State) :
    (∀ a, a < 44 → (consumed 4 (rekey none s)).buf.readByte a = 0) ∧
    (∀ a, 44 ≤ a → a < 1024 → (consumed 4 (rekey none s)).buf.readByte a = (generate 1024 s.x).1.getD a 0) ∧
    (consumed 4 (rekey none s)).x = initCipher ((generate 1024 s.x).1.take 40) s.x ∧
    (consumed 4 (rekey none s)).haveReg = 980 := by
  have haddr : 1024 - (rekey none s).haveReg.toNat = 40 := rfl
  refine ⟨fun a ha => ?wiped, fun a h₁ h₂ => ?kept, rekey_none_x s, ?unread⟩
  case wiped =>
    by_cases hkey : a < 40
    · rw [consumed_readByte_outside (.inl (by omega)), rekey_readByte_of_lt hkey]
    · exact consumed_readByte_inside (by omega) (by omega)
  case kept => rw [consumed_readByte_outside (.inr (by omega)), rekey_readByte_of_ge (by omega) h₂]
  case unread =>
    change (984 : BitVec 11) - 4 = 980
    decide

/-! ### `NEXT_U32` in its three ways -/

theorem nextU32_of_settled {s : State} (h : Settled 4 s) : nextU32 s = drawWord (s.charged 4) := by
  rw [nextU32, stirIfNeeded_eq_charged h, andThen_done]

theorem nextU32_from_buffer {s : State} (h : Settled 4 s) (h4 : 4 ≤ s.haveReg.toNat) (hh : s.haveReg.toNat ≤ 1024) :
    nextU32 s = .done (leWordAt (s.buf.readBytes (1024 - s.haveReg.toNat) 4) 0) (consumed 4 (s.charged 4)) :=
  (nextU32_of_settled h).trans (drawWord_of_unread h4 hh)

theorem nextU32_after_rekey {s : State} (h : Settled 4 s) (h4 : s.haveReg.toNat < 4) :
    nextU32 s = .done (leWordAt (generate 1024 s.x).1 40) (consumed 4 (rekey none (s.charged 4))) :=
  (nextU32_of_settled h).trans (drawWord_of_refill h4)

theorem nextU32_after_reseed {s : State} {a : EntAnswer} {rest : List EntAnswer} (h : Triggering 4 s)
    (ha : s.env.answers = a :: rest) (hok : a.fail = false) :
    nextU32 s = .done (leWordAt (generate 1024 (s.reseeded a rest).x).1 40)
      (consumed 4 (rekey none (s.reseeded a rest))) := by
  rw [nextU32, stirIfNeeded_of_answered_gather h ha hok, andThen_done]
  exact drawWord_of_refill (by rw [reseeded_haveReg]; decide)

/-! ### `RANDOM_U32` -/

theorem exec_randomU32_of_draw {s t : State} {v : Word} (hs : s.mode ≠ .halted) (h : nextU32 s = .done v t) :
    exec .randomU32 s = .next (t.respond .ok v []) := by
  have hrun : ((stirIfNeeded 4 s).andThen fun _ u => u32Tail u) =
      (nextU32 s).andThen fun v u => .done ⟨v, []⟩ u := by
    rw [nextU32, andThen_assoc]
    rfl
  calc exec .randomU32 s = finish .randomU32 ((stirIfNeeded 4 s).andThen fun _ u => u32Tail u) :=
        runUnlessHalted_of_ne hs _
    _ = .next (t.respond .ok v []) := by
        rw [hrun, h]
        rfl

/-- Settles O43: the draw from the buffer. -/
theorem randomU32FromBuffer : Obligations.RandomU32FromBuffer := by
  unfold Obligations.RandomU32FromBuffer
  intro s h h4 hh
  have hdraw := nextU32_from_buffer h h4 hh
  rw [leWordAt_readBytes] at hdraw
  exact ⟨_, exec_randomU32_of_draw h.mode_ne_halted hdraw, rfl,
    fun k hk => consumed_readByte_inside (s := s.charged 4) (Nat.le_add_right _ k) (Nat.add_lt_add_left hk _),
    fun b hb => consumed_readByte_outside (s := s.charged 4) hb, rfl, rfl, rfl, rfl, rfl, rfl⟩

/-- Settles O44: the draw after `REKEY(none)`. -/
theorem randomU32AfterRekey : Obligations.RandomU32AfterRekey := by
  unfold Obligations.RandomU32AfterRekey
  intro s h h4
  obtain ⟨hwiped, hkept, hx, hhave⟩ := consumed_rekey_frame (s.charged 4)
  exact ⟨_, exec_randomU32_of_draw h.mode_ne_halted (nextU32_after_rekey h h4), rfl, hwiped, hkept, hx, hhave, rfl,
    rfl, rfl, rfl⟩

/-- Settles O45: the draw after a reseed, in which `REKEY(none)` runs on the key just made. -/
theorem randomU32AfterReseed : Obligations.RandomU32AfterReseed := by
  unfold Obligations.RandomU32AfterReseed
  intro s a rest h ha hok
  obtain ⟨hwiped, hkept, hx, hhave⟩ := consumed_rekey_frame (s.reseeded a rest)
  rw [← reseeded_x a rest s]
  refine ⟨_, seed_length a, fun i hi => seed_getElem? a hi,
    exec_randomU32_of_draw h.mode_ne_halted (nextU32_after_reseed h ha hok), rfl, hwiped, hkept, ?key, hhave, rfl, rfl,
    rfl, reseeded_env a rest s⟩
  case key => exact hx

/-! ### `RANDOM_UNIFORM` -/

theorem exec_randomUniform_of_lt_two {s : State} {bound : Word} (hs : s.mode ≠ .halted) (h : bound < 2) :
    exec (.randomUniform bound) s = .next (s.respond .ok 0 []) := by
  have hrun : exec (.randomUniform bound) s = finish (.randomUniform bound)
      (if bound < 2 then .done ⟨0, []⟩ s else uniformLoop (drawBound s) bound s) := runUnlessHalted_of_ne hs _
  rw [hrun, if_pos h]
  rfl

/-- Settles O50. -/
theorem randomUniformTrivialBound : Obligations.RandomUniformTrivialBound := by
  unfold Obligations.RandomUniformTrivialBound
  exact fun s bound h hs => exec_randomUniform_of_lt_two hs h

/-- The one command that asks for nothing. -/
theorem firstRequest_eq_none {i : Instr} (h : firstRequest i = none) : ∃ bound, i = .randomUniform bound ∧ bound < 2 := by
  cases i with
  | randomU32 => cases h
  | randomFill len => cases h
  | randomUniform bound => exact ⟨bound, rfl, by simpa [firstRequest] using h⟩

theorem exec_randomUniform {s : State} {bound : Word} (hs : s.mode ≠ .halted) (h : 2 ≤ bound) :
    exec (.randomUniform bound) s = finish (.randomUniform bound) (uniformLoop (drawBound s) bound s) := by
  have hrun : exec (.randomUniform bound) s = finish (.randomUniform bound)
      (if bound < 2 then .done ⟨0, []⟩ s else uniformLoop (drawBound s) bound s) := runUnlessHalted_of_ne hs _
  rw [hrun, if_neg (BitVec.not_lt.mpr h)]

theorem toNat_pos_of_two_le {bound : Word} (h : 2 ≤ bound) : 0 < bound.toNat :=
  Nat.lt_of_lt_of_le Nat.zero_lt_two (BitVec.le_def.mp h)

/-- R84's acceptance test with the threshold as the number R85 gives. -/
theorem threshold_le_iff {bound v : Word} (h : 2 ≤ bound) : threshold bound ≤ v ↔ 2 ^ 32 % bound.toNat ≤ v.toNat := by
  rw [BitVec.le_def, threshold_toNat_eq_mod (toNat_pos_of_two_le h)]

theorem umod_eq_ofNat (v bound : Word) : v % bound = BitVec.ofNat 32 (v.toNat % bound.toNat) := by
  rw [← BitVec.toNat_umod, BitVec.ofNat_toNat, BitVec.setWidth_eq]

theorem exec_randomUniform_of_accepted {s t : State} {bound v : Word} (hb : 2 ≤ bound) (hs : s.mode ≠ .halted)
    (h : nextU32 s = .done v t) (hv : 2 ^ 32 % bound.toNat ≤ v.toNat) : exec (.randomUniform bound) s =
      .next (t.respond .ok (BitVec.ofNat 32 (v.toNat % bound.toNat)) []) := by
  rw [exec_randomUniform hs hb, uniformLoop_unfold, h, andThen_done, judge, if_pos ((threshold_le_iff hb).mpr hv),
    umod_eq_ofNat]
  rfl

/-- Settles O51: the accepted draw, then the frames of the three ways to draw. -/
theorem randomUniformAccepts : Obligations.RandomUniformAccepts := by
  unfold Obligations.RandomUniformAccepts
  intro s bound hb
  refine ⟨fun v t hs h hv => exec_randomUniform_of_accepted hb hs h hv, ?buffer, ?rekeyed, ?reseeded⟩
  case buffer =>
    intro a v h h4 hh hv
    have hdraw := nextU32_from_buffer h h4 hh
    rw [leWordAt_readBytes] at hdraw
    exact ⟨_, exec_randomUniform_of_accepted hb h.mode_ne_halted hdraw hv, rfl,
      fun k hk => consumed_readByte_inside (s := s.charged 4) (Nat.le_add_right _ k) (Nat.add_lt_add_left hk _),
      fun b hb => consumed_readByte_outside (s := s.charged 4) hb, rfl, rfl, rfl, rfl, rfl, rfl⟩
  case rekeyed =>
    intro ks v h h4 hv
    obtain ⟨hwiped, hkept, hx, hhave⟩ := consumed_rekey_frame (s.charged 4)
    exact ⟨_, exec_randomUniform_of_accepted hb h.mode_ne_halted (nextU32_after_rekey h h4) hv, rfl, hwiped, hkept, hx,
      hhave, rfl, rfl, rfl, rfl⟩
  case reseeded =>
    intro a rest
    rw [← reseeded_x a rest s]
    intro keyed ks v h ha hok hv
    obtain ⟨hwiped, hkept, hx, hhave⟩ := consumed_rekey_frame (s.reseeded a rest)
    exact ⟨_, exec_randomUniform_of_accepted hb h.mode_ne_halted (nextU32_after_reseed h ha hok) hv, rfl, hwiped, hkept,
      hx, hhave, rfl, rfl, rfl, reseeded_env a rest s⟩

/-! ### Rejected draws -/

/-- A run of two completes only through both. -/
theorem andThen_eq_done {α β : Type} {r : Micro α} {k : α → State → Micro β} {b : β} {t : State}
    (h : r.andThen k = .done b t) : ∃ a s, r = .done a s ∧ k a s = .done b t := by
  cases r with
  | done a s => exact ⟨a, s, rfl, h⟩
  | blocked live s => cases h
  | raised s => cases h
  | stopped f => cases h

/-- With `have` above 1024 there is nothing to consume: the model's own fault (20_memory.md R31). -/
theorem consume_of_gt {m : Nat} {s : State} (h : 1024 < s.haveReg.toNat) : consume m s = .stopped .bufferRange := by
  have haddr := consumeAddress_of_gt h
  have hout : ¬ consumeAddress s.haveReg + m ≤ 1024 := by omega
  exact if_neg hout

theorem drawWord_of_gt {s : State} (h : 1024 < s.haveReg.toNat) : drawWord s = .stopped .bufferRange := by
  have hready : readyToDraw s = s := if_neg (by rw [BitVec.lt_def]; exact Nat.not_lt.mpr (by show 4 ≤ _; omega))
  have hrun : drawWord s = (consume 4 (readyToDraw s)).andThen fun b u => .done (leWordAt b 0) u := rfl
  rw [hrun, hready, consume_of_gt h, andThen_stopped]

/-- A draw completes only by `CONSUME(4)` of the bytes that are ready. -/
theorem drawWord_eq_done {s t : State} {v : Word} (h : drawWord s = .done v t) :
    s.haveReg.toNat ≤ 1024 ∧ t = consumed 4 (readyToDraw s) := by
  by_cases hh : s.haveReg.toNat ≤ 1024
  · rw [drawWord_eq hh] at h
    exact ⟨hh, (Micro.done.inj h).2.symm⟩
  · rw [drawWord_of_gt (Nat.lt_of_not_le hh)] at h
    cases h

theorem stirIfNeeded_done_mode {s t : State} {n : Word} {u : Unit} (hs : s.mode ≠ .halted)
    (h : stirIfNeeded n s = .done u t) : t.mode = .seeded := by
  rcases settled_or_triggering n hs with hsettled | htrigger
  · obtain ⟨_, rfl⟩ := Micro.done.inj ((stirIfNeeded_eq_charged hsettled).symm.trans h)
    exact hsettled.1
  · cases ha : s.env.answers with
    | nil => simp [stirIfNeeded_of_unanswered_gather htrigger ha] at h
    | cons a rest =>
      cases hok : a.fail with
      | true => simp [stirIfNeeded_of_failed_gather htrigger ha hok] at h
      | false =>
        obtain ⟨_, rfl⟩ := Micro.done.inj ((stirIfNeeded_of_answered_gather htrigger ha hok).symm.trans h)
        rfl

/-- A completed draw leaves a seeded engine. -/
theorem nextU32_done_mode {s t : State} {v : Word} (hs : s.mode ≠ .halted) (h : nextU32 s = .done v t) :
    t.mode = .seeded := by
  obtain ⟨u, s₁, hstir, hdraw⟩ := andThen_eq_done h
  obtain ⟨_, rfl⟩ := drawWord_eq_done hdraw
  rw [consumed_mode, readyToDraw_mode, stirIfNeeded_done_mode hs hstir]

/-- Settles O52: both sides are the sampler's loop from the state that the rejected draw left. -/
theorem randomUniformRejectsAndRedraws : Obligations.RandomUniformRejectsAndRedraws := by
  unfold Obligations.RandomUniformRejectsAndRedraws
  intro s t bound v hb hs h hv
  have ht : t.mode ≠ .halted := by simp [nextU32_done_mode hs h]
  have hrejected : ¬ threshold bound ≤ v := by
    rw [threshold_le_iff hb]
    omega
  rw [exec_randomUniform hs hb, exec_randomUniform ht hb, uniformLoop_unfold bound s, h, andThen_done, judge,
    if_neg hrejected]

/-! ### Uniformity -/

/-- Settles O55: the accepted draws are whole periods of the residues, one of each residue in a period. -/
theorem acceptedDrawsUniform : Obligations.AcceptedDrawsUniform := by
  unfold Obligations.AcceptedDrawsUniform
  intro bound r hb hr
  have hpos := toNat_pos_of_two_le hb
  have hrlt : r.toNat < bound.toNat := BitVec.lt_def.mp hr
  have hmod : (threshold bound).toNat = 2 ^ 32 % bound.toNat := threshold_toNat_eq_mod hpos
  have hle : (threshold bound).toNat ≤ 2 ^ 32 := hmod ▸ Nat.mod_le _ _
  obtain ⟨q, hq⟩ := dvd_sub_threshold hpos
  have hshape : (Finset.range (2 ^ 32)).filter (fun v => (threshold bound).toNat ≤ v ∧ v % bound.toNat = r.toNat) =
      (Finset.Ico (threshold bound).toNat ((threshold bound).toNat + bound.toNat * q)).filter
        (fun v => v % bound.toNat = r.toNat) := by
    ext v
    simp only [Finset.mem_filter, Finset.mem_range, Finset.mem_Ico]
    omega
  have hperiodic : Function.Periodic (fun v => v % bound.toNat = r.toNat) (bound.toNat * q) := by
    intro v
    simp only [Nat.add_mul_mod_self_left]
  have hcount : (bound.toNat * q).count (fun v => v % bound.toNat = r.toNat) = q := by
    have hmodEq := Nat.count_modEq_card (b := bound.toNat * q) hpos r.toNat
    simpa [Nat.ModEq, Nat.mod_eq_of_lt hrlt, Nat.mul_div_cancel_left q hpos] using hmodEq
  rw [hshape, Nat.filter_Ico_card_eq_of_periodic _ _ _ hperiodic, hcount, hq, Nat.mul_div_cancel_left q hpos]

end Sys2Proof.Machine
end

