-- ==== Sys2Proof/Proofs/Fill.lean ====
section
/-! `RANDOM_FILL` (42_public_api.md R82): the loop takes what is unread and, as long as that is not enough, refills. Since
a refill does not see what was taken before it, a fill is the unread bytes, then those of successive refills, the last
one in part. -/

namespace Sys2Proof.Machine

/-! ### The turns of the loop -/

theorem fillLoop_zero (fuel : Nat) (s : State) : fillLoop (fuel + 1) 0 s = .done [] s := by
  rw [fillLoop, if_pos rfl]

theorem haveReg_pos_iff (s : State) : 0 < s.haveReg ↔ 0 < s.haveReg.toNat := by
  rw [BitVec.lt_def]
  rfl

theorem haveReg_eq_zero_iff (s : State) : s.haveReg = 0 ↔ s.haveReg.toNat = 0 := by
  rw [BitVec.toNat_eq]
  rfl

/-- A turn that the unread bytes satisfy: it takes them and runs no rekey, even when it takes the last. -/
theorem fillLoop_of_le {fuel r : Nat} {s : State} (hr : 0 < r) (hle : r ≤ s.haveReg.toNat)
    (hh : s.haveReg.toNat ≤ 1024) :
    fillLoop (fuel + 2) r s = .done (s.buf.readBytes (1024 - s.haveReg.toNat) r) (consumed r s) := by
  rw [fillLoop, if_neg (by omega)]
  simp only [Nat.min_eq_left hle]
  rw [if_pos ((haveReg_pos_iff s).mpr (by omega)), consume_eq_consumed hle hh, andThen_done, readBytes_length,
    Nat.sub_self, if_neg (by simp), fillLoop_zero, andThen_done, List.append_nil]

/-- After `REKEY(none)` nothing is left of what was consumed before it. -/
theorem rekey_consumed {m : Nat} {s : State} (hm : m ≤ s.haveReg.toNat) (hh : s.haveReg.toNat ≤ 1024) (hw : s.buf.wf) :
    rekey none (consumed m s) = rekey none s :=
  rekey_congr (consumed_wf hw hm hh) hw rfl rfl rfl rfl rfl rfl

theorem andThen_nil_append (r : Micro (List Byte)) : (r.andThen fun rest t => .done ([] ++ rest) t) = r := by
  cases r <;> rfl

/-- A turn with no unread byte only refills. -/
theorem fillLoop_of_empty {fuel r : Nat} {s : State} (hr : 0 < r) (hzero : s.haveReg.toNat = 0) :
    fillLoop (fuel + 1) r s = fillLoop fuel r (rekey none s) := by
  rw [fillLoop, if_neg (by omega)]
  simp only
  rw [if_neg fun h => absurd ((haveReg_pos_iff s).mp h) (by omega), andThen_done, List.length_nil,
    if_pos ⟨(haveReg_eq_zero_iff s).mpr hzero, hr⟩, andThen_nil_append, Nat.sub_zero]

/-- A turn that takes all unread bytes and refills. -/
theorem fillLoop_of_lt {fuel r : Nat} {s : State} (hlt : s.haveReg.toNat < r) (hh : s.haveReg.toNat ≤ 1024)
    (hw : s.buf.wf) : fillLoop (fuel + 1) r s =
      (fillLoop fuel (r - s.haveReg.toNat) (rekey none s)).andThen fun rest t => .done (unread s ++ rest) t := by
  rcases Nat.eq_zero_or_pos s.haveReg.toNat with hzero | hpos
  · have hunread : unread s = [] := by rw [unread, hzero]; rfl
    rw [fillLoop_of_empty (by omega) hzero, hunread, andThen_nil_append, hzero, Nat.sub_zero]
  · have hempty : (consumed s.haveReg.toNat s).haveReg = 0 := by
      rw [haveReg_eq_zero_iff, consumed_haveReg_toNat le_rfl, Nat.sub_self]
    rw [fillLoop, if_neg (by omega)]
    simp only [Nat.min_eq_right hlt.le]
    rw [if_pos ((haveReg_pos_iff s).mpr hpos), consume_eq_consumed le_rfl hh, andThen_done, readBytes_length,
      if_pos ⟨hempty, by omega⟩, rekey_consumed le_rfl hh hw]
    rfl

/-! ### The stream of refills -/

@[simp] theorem unread_length (s : State) : (unread s).length = s.haveReg.toNat := readBytes_length _ _ _

theorem unreadStream_length (k : Nat) (s : State) : (unreadStream k s).length = s.haveReg.toNat + 984 * k := by
  induction k generalizing s with
  | zero => simp [unreadStream]
  | succ k ih =>
    have hhave : (rekey none s).haveReg.toNat = 984 := rfl
    rw [unreadStream, List.length_append, ih, hhave, unread_length]
    omega

/-- Within the unread bytes the refills are not seen. -/
theorem unreadStream_take_of_le (k : Nat) {r : Nat} {s : State} (h : r ≤ s.haveReg.toNat) :
    (unreadStream k s).take r = s.buf.readBytes (1024 - s.haveReg.toNat) r := by
  have hunread : (unread s).take r = s.buf.readBytes (1024 - s.haveReg.toNat) r := by
    rw [unread, ← Nat.add_sub_cancel' h, readBytes_add, List.take_left' (readBytes_length _ _ _)]
  cases k with
  | zero => exact hunread
  | succ k => rw [unreadStream, List.take_append_of_le_length (by simpa using h), hunread]

/-- Past the unread bytes the stream goes on with the first refill's. -/
theorem unreadStream_succ_take (n : Nat) {r : Nat} {s : State} (h : s.haveReg.toNat ≤ r) :
    (unreadStream (n + 1) s).take r = unread s ++ (unreadStream n (rekey none s)).take (r - s.haveReg.toNat) := by
  rw [unreadStream, List.take_append, List.take_of_length_le (by simpa using h), unread_length]

/-- A fill that needs `k + 1` refills, at any length of stream that holds them. -/
theorem fillLoop_of_refills {k n r fuel : Nat} {s : State} (hmore : s.haveReg.toNat + 984 * k < r)
    (henough : r ≤ s.haveReg.toNat + 984 * (k + 1)) (hfuel : k + 3 ≤ fuel) (hn : k + 1 ≤ n)
    (hh : s.haveReg.toNat ≤ 1024) (hw : s.buf.wf) :
    fillLoop fuel r s = .done ((unreadStream n s).take r)
      (consumed (r - (s.haveReg.toNat + 984 * k)) ((rekey none)^[k + 1] s)) := by
  have hhave : (rekey none s).haveReg.toNat = 984 := rfl
  induction k generalizing n r fuel s with
  | zero =>
    obtain ⟨n, rfl⟩ : ∃ m, n = m + 1 := ⟨n - 1, by omega⟩
    obtain ⟨fuel, rfl⟩ : ∃ f, fuel = f + 3 := ⟨fuel - 3, by omega⟩
    rw [fillLoop_of_lt (by omega) hh hw, fillLoop_of_le (by omega) (by omega) (by omega), andThen_done,
      unreadStream_succ_take n (by omega), unreadStream_take_of_le n (by omega)]
    rfl
  | succ k ih =>
    obtain ⟨n, rfl⟩ : ∃ m, n = m + 1 := ⟨n - 1, by omega⟩
    obtain ⟨fuel, rfl⟩ : ∃ f, fuel = f + 1 := ⟨fuel - 1, by omega⟩
    have hrest : r - s.haveReg.toNat - ((rekey none s).haveReg.toNat + 984 * k) =
        r - (s.haveReg.toNat + 984 * (k + 1)) := by omega
    rw [fillLoop_of_lt (by omega) hh hw,
      ih (n := n) (by omega) (by omega) (by omega) (by omega) (by omega) (rekey_wf hw) rfl, andThen_done, hrest,
      unreadStream_succ_take n (by omega), ← Function.iterate_succ_apply]

/-! ### The command -/

theorem exec_randomFill_of_fill {s s₁ t : State} {len : Word} {out : List Byte} (hs : s.mode ≠ .halted)
    (hstir : stirIfNeeded len s = .done () s₁) (hfill : fillTail len s₁ = .done ⟨0, out⟩ t) :
    exec (.randomFill len) s = .next (t.respond .ok 0 out) := by
  rw [exec_eq_stirIfNeeded_andThen_tailOf rfl hs, hstir, andThen_done, tailOf_randomFill, hfill]
  rfl

theorem fillTail_of_done {len : Word} {s t : State} {out : List Byte}
    (h : fillLoop (len.toNat + 2) len.toNat s = .done out t) : fillTail len s = .done ⟨0, out⟩ t := by
  rw [fillTail, h, andThen_done]

/-- How many refills a fill of `r` bytes runs. -/
def refills (r : Nat) (s : State) : Nat := (r - s.haveReg.toNat + 983) / 984

/-- What a fill of `r` bytes from `s` leaves in `t`. -/
structure Filled (r : Nat) (s t : State) : Prop where
  x : t.x = ((rekey none)^[refills r s] s).x
  left : t.haveReg.toNat = s.haveReg.toNat + 984 * refills r s - r
  buf : s.haveReg.toNat < r → ∀ a, a < 1024 → t.buf.readByte a =
    if a < 1024 - t.haveReg.toNat then 0 else ((rekey none)^[refills r s] s).buf.readByte a
  count : t.count = s.count
  creatorPid : t.creatorPid = s.creatorPid
  mode : t.mode = s.mode
  env : t.env = s.env

theorem refills_of_le {r : Nat} {s : State} (h : r ≤ s.haveReg.toNat) : refills r s = 0 := by
  unfold refills
  omega

/-- The refills are the number that `fillLoop_of_refills` asks for. -/
theorem refills_of_lt {r : Nat} {s : State} (h : s.haveReg.toNat < r) :
    ∃ k, refills r s = k + 1 ∧ s.haveReg.toNat + 984 * k < r ∧ r ≤ s.haveReg.toNat + 984 * (k + 1) := by
  refine ⟨refills r s - 1, ?_⟩
  unfold refills
  omega

theorem iterate_rekey_frame (k : Nat) (s : State) :
    ((rekey none)^[k] s).count = s.count ∧ ((rekey none)^[k] s).creatorPid = s.creatorPid ∧
      ((rekey none)^[k] s).mode = s.mode ∧ ((rekey none)^[k] s).env = s.env := by
  induction k with
  | zero => exact ⟨rfl, rfl, rfl, rfl⟩
  | succ k ih =>
    rw [Function.iterate_succ_apply']
    exact ih

theorem filled_consumed_of_le {r : Nat} {s : State} (h : r ≤ s.haveReg.toNat) : Filled r s (consumed r s) where
  x := by rw [refills_of_le h]; rfl
  left := by rw [refills_of_le h, consumed_haveReg_toNat h, Nat.mul_zero, Nat.add_zero]
  buf hlt := absurd hlt (by omega)
  count := rfl
  creatorPid := rfl
  mode := rfl
  env := rfl

theorem filled_self (s : State) : Filled 0 s s where
  x := by rw [refills_of_le (Nat.zero_le _)]; rfl
  left := by rw [refills_of_le (Nat.zero_le _), Nat.mul_zero, Nat.add_zero, Nat.sub_zero]
  buf hlt := absurd hlt (by omega)
  count := rfl
  creatorPid := rfl
  mode := rfl
  env := rfl

/-- Below its unread bytes a refilled buffer is zero, and what is taken from it is zeroed. -/
theorem consumed_refill_readByte {m : Nat} (hm : m ≤ 984) (s : State) (a : Nat) :
    (consumed m (rekey none s)).buf.readByte a =
      if a < 1024 - (consumed m (rekey none s)).haveReg.toNat then 0 else (rekey none s).buf.readByte a := by
  have hhave : (rekey none s).haveReg.toNat = 984 := rfl
  rw [consumed_haveReg_toNat (by omega), hhave]
  split
  next hlow =>
    by_cases hkey : a < 40
    · rw [consumed_readByte_outside (.inl (by omega)), rekey_readByte_of_lt hkey]
    · exact consumed_readByte_inside (by omega) (by omega)
  next hhigh => exact consumed_readByte_outside (.inr (by omega))

theorem filled_consumed_of_refills {k r : Nat} {s : State} (hk : refills r s = k + 1)
    (hmore : s.haveReg.toNat + 984 * k < r) (henough : r ≤ s.haveReg.toNat + 984 * (k + 1)) :
    Filled r s (consumed (r - (s.haveReg.toNat + 984 * k)) ((rekey none)^[k + 1] s)) := by
  obtain ⟨hcount, hpid, hmode, henv⟩ := iterate_rekey_frame (k + 1) s
  have hlast : (rekey none)^[k + 1] s = rekey none ((rekey none)^[k] s) := Function.iterate_succ_apply' _ _ _
  have hhave : ((rekey none)^[k + 1] s).haveReg.toNat = 984 := by rw [hlast]; rfl
  refine ⟨by rw [hk]; rfl, ?left, fun _ a _ => ?buf, hcount, hpid, hmode, henv⟩
  case left =>
    rw [consumed_haveReg_toNat (by omega), hhave, hk]
    omega
  case buf =>
    rw [hk, hlast]
    exact consumed_refill_readByte (by omega) _ a

/-- The fill in full: the bytes of the stream, and the state behind them. -/
theorem fillTail_filled {len : Word} {s : State} (hh : s.haveReg.toNat ≤ 1024) (hw : s.buf.wf) :
    ∃ t, fillTail len s = .done ⟨0, (unreadStream len.toNat s).take len.toNat⟩ t ∧ Filled len.toNat s t := by
  rcases Nat.eq_zero_or_pos len.toNat with hzero | hpos
  · rw [hzero]
    exact ⟨s, fillTail_of_done (by rw [hzero]; exact fillLoop_zero 1 s), filled_self s⟩
  · by_cases hle : len.toNat ≤ s.haveReg.toNat
    · rw [unreadStream_take_of_le _ hle]
      exact ⟨_, fillTail_of_done (fillLoop_of_le hpos hle hh), filled_consumed_of_le hle⟩
    · obtain ⟨k, hk, hmore, henough⟩ := refills_of_lt (Nat.lt_of_not_le hle)
      exact ⟨_, fillTail_of_done (fillLoop_of_refills hmore henough (by omega) (by omega) hh hw),
        filled_consumed_of_refills hk hmore henough⟩

/-- Settles O48: the stream of `len` refills is long enough, since each holds bytes. -/
theorem randomFillEmitsStream : Obligations.RandomFillEmitsStream := by
  unfold Obligations.RandomFillEmitsStream
  intro s s₁ len hs h hh hw
  obtain ⟨t, hfill, hfilled⟩ := fillTail_filled (len := len) hh hw
  refine ⟨_, exec_randomFill_of_fill hs h hfill, rfl, ?length, hfilled.count, hfilled.creatorPid,
    hfilled.mode, hfilled.env⟩
  case length =>
    rw [List.length_take, unreadStream_length]
    omega

/-- Settles O49. -/
theorem randomFillRekeyCount : Obligations.RandomFillRekeyCount := by
  unfold Obligations.RandomFillRekeyCount
  intro s s₁ len hs h hh hw
  obtain ⟨t, hfill, hfilled⟩ := fillTail_filled (len := len) hh hw
  exact ⟨_, exec_randomFill_of_fill hs h hfill, hfilled.x, hfilled.left, hfilled.buf⟩

theorem fillLoop_of_gt {fuel r : Nat} {s : State} (hr : 0 < r) (h : 1024 < s.haveReg.toNat) :
    fillLoop (fuel + 1) r s = .stopped .bufferRange := by
  rw [fillLoop, if_neg (by omega)]
  simp only
  rw [if_pos ((haveReg_pos_iff s).mpr (by omega)), consume_of_gt h, andThen_stopped]

/-- In every state a fill completes and calls no oracle, or the model stops. -/
theorem fillTail_done_or_stopped (len : Word) (s : State) :
    (∃ a t, fillTail len s = .done a t ∧ t.env = s.env) ∨ ∃ f, fillTail len s = .stopped f := by
  by_cases hh : s.haveReg.toNat ≤ 1024
  · obtain ⟨out, t, hloop, _, henv, _⟩ := fillLoop_done (P := fun t => t.env = s.env) (fun _ h => h)
      (fun _ _ _ _ h => h) (len.toNat + 2) len.toNat s (.inl le_rfl) hh rfl
    exact .inl ⟨_, t, fillTail_of_done hloop, henv⟩
  · rcases Nat.eq_zero_or_pos len.toNat with hzero | hpos
    · exact .inl ⟨_, s, fillTail_of_done (by rw [hzero]; exact fillLoop_zero 1 s), rfl⟩
    · refine .inr ⟨.bufferRange, ?_⟩
      rw [fillTail, fillLoop_of_gt hpos (Nat.lt_of_not_le hh), andThen_stopped]

/-- In every state a draw completes and calls no oracle, or the model stops. -/
theorem u32Tail_done_or_stopped (s : State) :
    (∃ a t, u32Tail s = .done a t ∧ t.env = s.env) ∨ ∃ f, u32Tail s = .stopped f := by
  by_cases hh : s.haveReg.toNat ≤ 1024
  · refine .inl ⟨_, _, by rw [u32Tail, drawWord_eq hh, andThen_done], ?_⟩
    rw [consumed_env, readyToDraw_env]
  · exact .inr ⟨.bufferRange, by rw [u32Tail, drawWord_of_gt (Nat.lt_of_not_le hh), andThen_stopped]⟩

theorem readBytes_eq_map_range (m : Memory) (a n : Nat) :
    m.readBytes a n = (List.range n).map fun k => m.readByte (a + k) := by
  simp [Memory.readBytes, List.range'_eq_map_range]

/-- Settles O47: one turn of the loop, or none for the empty fill. -/
theorem randomFillFromBuffer : Obligations.RandomFillFromBuffer := by
  unfold Obligations.RandomFillFromBuffer
  intro s len h hle hh
  have hstir := stirIfNeeded_eq_charged h
  rcases Nat.eq_zero_or_pos len.toNat with hzero | hpos
  · have hfill : fillTail len (s.charged len) = .done ⟨0, []⟩ (s.charged len) :=
      fillTail_of_done (by rw [hzero]; exact fillLoop_zero 1 _)
    exact ⟨_, exec_randomFill_of_fill h.mode_ne_halted hstir hfill, by rw [hzero]; rfl,
      fun k hk => absurd hk (by omega), fun b _ => rfl, by rw [hzero]; rfl, rfl, rfl, rfl, rfl, rfl⟩
  · have hfill := fillTail_of_done (fillLoop_of_le (s := s.charged len) (fuel := len.toNat) hpos hle hh)
    rw [readBytes_eq_map_range] at hfill
    exact ⟨_, exec_randomFill_of_fill h.mode_ne_halted hstir hfill, rfl,
      fun k hk => consumed_readByte_inside (s := s.charged len) (Nat.le_add_right _ k) (Nat.add_lt_add_left hk _),
      fun b hb => consumed_readByte_outside (s := s.charged len) hb,
      consumed_haveReg_toNat (s := s.charged len) hle, rfl, rfl, rfl, rfl, rfl⟩

/-! ### `RANDOM_FILL 4` and `RANDOM_U32` -/

theorem bytesLe32_leWordAt_readBytes (m : Memory) (a : Nat) :
    bytesLe32 (leWordAt (m.readBytes a 4) 0) = m.readBytes a 4 := by
  rw [leWordAt_readBytes, bytesLe32_le32]
  simp [Memory.readBytes, List.range']

/-- With no unread byte or with four, the draw and the fill take the same four bytes of the same buffer. -/
theorem fillTail_four {s : State} (hh : s.haveReg.toNat ≤ 1024) (hhave : s.haveReg = 0 ∨ 4 ≤ s.haveReg.toNat) :
    ∃ v t, drawWord s = .done v t ∧ fillTail 4 s = .done ⟨0, bytesLe32 v⟩ t := by
  refine ⟨_, _, drawWord_eq hh, fillTail_of_done ?_⟩
  rw [bytesLe32_leWordAt_readBytes]
  have hturn : ∀ fuel, fillLoop (fuel + 2) 4 (readyToDraw s) = .done
      ((readyToDraw s).buf.readBytes (1024 - (readyToDraw s).haveReg.toNat) 4) (consumed 4 (readyToDraw s)) :=
    fun _ => fillLoop_of_le (by decide) (readyToDraw_haveReg_ge s) (readyToDraw_haveReg_le s (by decide) hh)
  rcases hhave with hempty | h4
  · have hzero : s.haveReg.toNat = 0 := (haveReg_eq_zero_iff s).mp hempty
    have hready : readyToDraw s = rekey none s := if_pos (by rw [hempty]; decide)
    rw [← hturn 3, hready]
    exact fillLoop_of_empty (by decide) hzero
  · have hready : readyToDraw s = s := if_neg (by rw [BitVec.lt_def]; exact Nat.not_lt.mpr h4)
    rw [← hturn 4, hready]
    rfl

/-- After the same `STIR_IF_NEEDED(4)` the two commands answer the same four bytes from the same state. -/
theorem exec_four_of_stir {s s₁ : State} (hs : s.mode ≠ .halted) (hstir : stirIfNeeded 4 s = .done () s₁)
    (hh : s₁.haveReg.toNat ≤ 1024) (hhave : s₁.haveReg = 0 ∨ 4 ≤ s₁.haveReg.toNat) :
    ∃ (t : State) (v : Word), exec .randomU32 s = .next (t.respond .ok v []) ∧
      exec (.randomFill 4) s = .next (t.respond .ok 0 (bytesLe32 v)) := by
  obtain ⟨v, t, hdraw, hfill⟩ := fillTail_four hh hhave
  have hnext : nextU32 s = .done v t := by rw [nextU32, hstir, andThen_done, hdraw]
  exact ⟨t, v, exec_randomU32_of_draw hs hnext, exec_randomFill_of_fill hs hstir hfill⟩

/-- Settles O46: the `STIR_IF_NEEDED(4)` leaves `have` as it was, or at 0 after a reseed. -/
theorem fillFourMatchesWord : Obligations.FillFourMatchesWord := by
  unfold Obligations.FillFourMatchesWord
  intro s hh hcase
  rcases hcase with ⟨hsettled, hhave⟩ | ⟨htrigger, a, rest, ha, hok⟩
  · exact exec_four_of_stir hsettled.mode_ne_halted (stirIfNeeded_eq_charged hsettled) hh hhave
  · exact exec_four_of_stir htrigger.mode_ne_halted (stirIfNeeded_of_answered_gather htrigger ha hok)
      (by rw [reseeded_haveReg]; decide) (.inl (reseeded_haveReg a rest s))

end Sys2Proof.Machine
end

