-- ==== Sys2Proof/Proofs/KnownAnswer.lean ====
section
/-! The block transform as a whole against the vector of 95_test_vectors.md S4. -/

namespace Sys2Proof.Machine

/-- Settles O26: the kernel evaluates the block. -/
theorem blockKnownAnswer : Obligations.BlockKnownAnswer := by
  unfold Obligations.BlockKnownAnswer
  decide +kernel

end Sys2Proof.Machine
end

