-- ==== Sys2Proof/Proofs/PortsAndReset.lean ====
section
/-! What a step does at the ports (30_encoding.md R49 to R51, R55), under RESET (70_reset_and_hazards.md R110, R111) and
right after it (10_state.md R27), and what the output ports show (10_state.md R24, R25). -/

namespace Sys2Proof.Machine

/-! ### Accepting a word -/

theorem step_of_legal_word {s : State} {w : CmdWord} {rest : List CmdWord} {i : Instr} (hpin : s.env.resetPin = false)
    (hidle : s.seq = .idle) (hcommands : s.env.commands = w :: rest) (hw : decode w = .ok i) :
    step s = deliverOutcome (exec i (s.accept rest)) := by
  rw [step_of_accept hpin hidle hcommands, dispatch_legal hw]

/-- Settles O6. -/
theorem stepRunsDecodedInstruction : Obligations.StepRunsDecodedInstruction := by
  unfold Obligations.StepRunsDecodedInstruction
  exact fun s w rest i hpin hidle hcommands hw _ => step_of_legal_word hpin hidle hcommands hw

theorem tableWord_toNat (w : CmdWord) : tableWord 40 w.toNat = w := by
  rw [tableWord, Nat.mod_eq_of_lt w.isLt, BitVec.ofNat_toNat, BitVec.setWidth_eq]

/-- Settles O7: the word put at the head of the host's list is the one the idle engine accepts. -/
theorem presentedWordRunsNext : Obligations.PresentedWordRunsNext := by
  unfold Obligations.PresentedWordRunsNext
  intro s w i hw
  rw [State.withFetchWord, tableWord_toNat]
  exact step_of_legal_word (s := s.present w) rfl rfl rfl hw

/-- Settles O9: the word is answered by the entry on `IllegalCommand`, and the host takes the record at once. -/
theorem illegalWordAnswered : Obligations.IllegalWordAnswered := by
  unfold Obligations.IllegalWordAnswered
  intro s w rest hmode hpin hidle hcommands htakes hw
  rw [← CmdWord.op_mem_legal_iff] at hw
  have hready := deliver_of_ready ((s.accept rest).takeException .illegalCommand) (takeException_seq_illegal _) htakes
  rw [step_of_accept hpin hidle hcommands, dispatch_illegal (s := s.accept rest) hmode (decode_illegal hw), deliverOutcome_next, hready]
  simp [takeException_illegalCommand, transfers, hidle]

/-- Settles O10. -/
theorem idleEngineUnchanged : Obligations.IdleEngineUnchanged := by
  unfold Obligations.IdleEngineUnchanged
  intro s hpin hidle hcommands
  refine ⟨?unchanged, ?ready⟩
  case unchanged => simp [step, hpin, hidle, hcommands]
  case ready => simp [State.outputs, hidle]

/-! ### RESET -/

theorem reset_x_zero : ∀ i : Fin 16, State.reset.x[i] = 0 := by decide

/-- Settles O11: the fields of `applyReset`, one by one. -/
theorem resetFromAnyState : Obligations.ResetFromAnyState := by
  unfold Obligations.ResetFromAnyState
  intro s hpin
  exact ⟨s.applyReset, step_of_reset hpin, applyReset_mode s, reset_x_zero, readByte_nil, applyReset_haveReg s,
    applyReset_count s, applyReset_creatorPid s, applyReset_seq s, rfl, rfl, rfl, rfl,
    fun _ _ h => applyReset_answers_of_waiting h, applyReset_answers_of_not_waiting⟩

/-- Settles O13. -/
theorem resetValues : Obligations.ResetValues := by
  unfold Obligations.ResetValues
  exact ⟨rfl, reset_x_zero, readByte_nil, rfl, rfl, rfl, rfl, rfl, rfl, rfl, rfl, rfl, rfl, rfl⟩

/-- The engine's own part of the invariant holds at the reset values, whatever the environment is. -/
theorem engineInv_of_reset_values {s : State} (hx : s.x = State.reset.x) (hbuf : s.buf = []) (hhave : s.haveReg = 0)
    (hmode : s.mode = .uninit) : EngineInv s where
  constants h := by simp [hmode] at h
  counter := by rw [hx]; exact ⟨rfl, rfl⟩
  haveLe := by rw [hhave]; decide
  countRange h := by simp [hmode] at h
  frontZero a _ := by rw [hbuf]; exact readByte_nil a
  bufWf := by rw [hbuf]; exact reset_buf_wf

/-- Settles O14. -/
theorem invHoldsAtReset : Obligations.InvHoldsAtReset := by
  unfold Obligations.InvHoldsAtReset
  exact ⟨engineInv_of_reset_values rfl rfl rfl rfl, trivial⟩

/-! ### The host's transfers -/

theorem transfers_map_byte (out : List Byte) : (transfers out).map (·.byte) = out := by
  rw [transfers, List.map_map]
  exact List.zipIdx_map_fst 0 out

@[simp] theorem transfers_length (out : List Byte) : (transfers out).length = out.length := by simp [transfers]

theorem transfers_getElem_last (out : List Byte) {j : Nat} (h : j < (transfers out).length) :
    (transfers out)[j].last = true ↔ j + 1 = out.length := by
  simp [transfers]

/-- A host that has a transfer left after the last byte takes all bytes and the record. -/
theorem deliver_of_enough {s : State} {out : List Byte} {rsp : Response} (h : s.seq = .responding out rsp)
    (htakes : ∀ k, s.env.takes = some k → out.length < k) : s.deliver =
      { s with
        seq := .idle
        env := { s.env with
          received := s.env.received ++ transfers out
          responses := s.env.responses ++ [rsp]
          takes := s.env.takes.map (· - (out.length + 1)) } } := by
  have hall : (transfers out).take out.length = transfers out := List.take_of_length_le (transfers_length out).le
  cases hk : s.env.takes with
  | none =>
    rw [deliver_of_ready s h hk, hall]
    simp [hk]
  | some k =>
    have hlt : out.length < k := htakes k hk
    have hleft : ¬ k - out.length = 0 := by omega
    simp [State.deliver, h, hk, bytesTaken, Nat.min_eq_right hlt.le, hleft, hall]
    omega

/-- A host that stalls after `k` bytes leaves the other bytes and the record. -/
theorem deliver_of_stall {s : State} {out : List Byte} {rsp : Response} {k : Nat} (h : s.seq = .responding out rsp)
    (hk : s.env.takes = some k) (hle : k ≤ out.length) : s.deliver =
      { s with
        seq := .responding (out.drop k) rsp
        env := { s.env with received := s.env.received ++ (transfers out).take k, takes := some 0 } } := by
  simp [State.deliver, h, hk, bytesTaken, Nat.min_eq_left hle]

theorem step_of_responding {s : State} {out : List Byte} {rsp : Response} (hpin : s.env.resetPin = false)
    (h : s.seq = .responding out rsp) : step s = .next s.deliver := by
  simp [step, hpin, h]

/-- Settles O19. -/
theorem readyHostTakesAll : Obligations.ReadyHostTakesAll := by
  unfold Obligations.ReadyHostTakesAll
  intro s out rsp hpin h htakes
  exact ⟨transfers out, transfers_map_byte out, fun _ hk => transfers_getElem_last out hk,
    by rw [step_of_responding hpin h, deliver_of_enough h htakes]⟩

theorem outputs_cmdReady_of_responding {s : State} {out : List Byte} {rsp : Response}
    (h : s.seq = .responding out rsp) : s.outputs.cmdReady = false := by
  cases out <;> simp [State.outputs, h]

/-- Settles O20: the state after the stall is one in which the host takes no byte more. -/
theorem stalledHostHoldsEngine : Obligations.StalledHostHoldsEngine := by
  unfold Obligations.StalledHostHoldsEngine
  intro s out rsp k hpin h hk hle
  refine ⟨(transfers out).take k, ?bytes, fun j hj => ?last, ?stall, outputs_cmdReady_of_responding rfl, ?fixed⟩
  case bytes => rw [List.map_take, transfers_map_byte]
  case last =>
    rw [List.getElem_take]
    exact transfers_getElem_last out _
  case stall => rw [step_of_responding hpin h, deliver_of_stall h hk hle]
  case fixed =>
    rw [step_of_responding (by exact hpin) rfl, deliver_of_stall (k := 0) rfl rfl (Nat.zero_le _)]
    simp

/-! ### The output ports -/

/-- Settles O22: the ports are computed from the mode and the sequencer alone. -/
theorem outputsShowModeOnly : Obligations.OutputsShowModeOnly := by
  unfold Obligations.OutputsShowModeOnly
  intro s x b h c p
  have hmode : s.outputs.modeOut = s.mode.code := by unfold State.outputs; split <;> rfl
  have hfatal : s.outputs.fatal = (s.mode == .halted) := by unfold State.outputs; split <;> rfl
  refine ⟨?code, ?fatal, rfl, fun hq => ?idle, fun cmd live hq => ?waiting, fun v out rsp hq => ?bytes,
    fun rsp hq => ?record⟩
  case code => rw [hmode]; cases s.mode <;> rfl
  case fatal => rw [hfatal, beq_iff_eq]
  case idle => simp [State.outputs, hq]
  case waiting => simp [State.outputs, hq]
  case bytes => simp [State.outputs, hq]
  case record =>
    have hstatus : s.outputs.rspStatus = rsp.status.code := by simp [State.outputs, hq]
    refine ⟨by simp [State.outputs, hq], by simp [State.outputs, hq], ?status, by simp [State.outputs, hq],
      by simp [State.outputs, hq], by simp [State.outputs, hq]⟩
    case status => rw [hstatus]; cases rsp.status <;> rfl

end Sys2Proof.Machine
end

