-- ==== Sys2Proof/Proofs/CommandRuns.lean ====
section
/-! What the run of a command can do to the state, said once (`Keeps`, `HaltsAfter`, `Ends`): every micro-operation but a
failing gather keeps the invariant, the log and the host's side of the ports, and moves the mode only by an answer. -/

namespace Sys2Proof.Machine

/-! ### The engine's invariant under each micro-operation -/

theorem EngineInv.congr {s t : State} (h : EngineInv s) (hx : t.x = s.x) (hbuf : t.buf = s.buf)
    (hhave : t.haveReg = s.haveReg) (hcount : t.count = s.count) (hmode : t.mode = s.mode) : EngineInv t where
  constants := by rw [hmode, hx]; exact h.constants
  counter := by rw [hx]; exact h.counter
  haveLe := by rw [hhave]; exact h.haveLe
  countRange := by rw [hmode, hcount]; exact h.countRange
  frontZero := by rw [hbuf]; exact h.frontZero
  bufWf := by rw [hbuf]; exact h.bufWf

/-- The engine's invariant asks nothing more of a halted engine. -/
theorem EngineInv.halt {s t : State} (h : EngineInv s) (hx : t.x = s.x) (hbuf : t.buf = s.buf)
    (hhave : t.haveReg = s.haveReg) (hmode : t.mode = .halted) : EngineInv t where
  constants hseeded := by simp [hmode] at hseeded
  counter := by rw [hx]; exact h.counter
  haveLe := by rw [hhave]; exact h.haveLe
  countRange hseeded := by simp [hmode] at hseeded
  frontZero := by rw [hbuf]; exact h.frontZero
  bufWf := by rw [hbuf]; exact h.bufWf

theorem EngineInv.rekey {s : State} (extra : Option (List Byte)) (h : EngineInv s) : EngineInv (rekey extra s) where
  constants _ := initCipher_hasConstants _ _
  counter := initCipher_counterZero _ _
  haveLe := by rw [rekey_haveReg]; decide
  countRange := h.countRange
  frontZero _ ha := rekey_readByte_of_lt ha
  bufWf := rekey_wf h.bufWf

theorem EngineInv.consumed {s : State} {m : Nat} (h : EngineInv s) (hm : m ≤ s.haveReg.toNat) :
    EngineInv (consumed m s) where
  constants := h.constants
  counter := h.counter
  haveLe := by
    have hle := h.haveLe
    rw [consumed_haveReg_toNat hm]
    omega
  countRange := h.countRange
  frontZero a ha := by
    have hle := h.haveLe
    rw [consumed_readByte_outside (.inl (by omega))]
    exact h.frontZero a ha
  bufWf := by
    have hle := h.haveLe
    exact consumed_wf h.bufWf hm (by omega)

theorem EngineInv.charged {s : State} {n : Word} (h : EngineInv s) (hn : n < s.count) : EngineInv (s.charged n) where
  constants := h.constants
  counter := h.counter
  haveLe := h.haveLe
  countRange hmode := by
    have hrange := h.countRange hmode
    have hlt : n.toNat < s.count.toNat := BitVec.lt_def.mp hn
    rw [charged_count_toNat hn]
    omega
  frontZero := h.frontZero
  bufWf := h.bufWf

theorem EngineInv.reseedFrom {s : State} (live : Word) (seed : List Byte) (h : EngineInv s) :
    EngineInv (reseedFrom live seed s) := by
  have hrekey := h.rekey (some seed)
  have hhave : (Machine.reseedFrom live seed s).haveReg.toNat ≤ 984 := by rw [reseedFrom_haveReg]; decide
  have hcount : 1 ≤ (Machine.reseedFrom live seed s).count.toNat ∧
      (Machine.reseedFrom live seed s).count.toNat ≤ 1600000 := by rw [reseedFrom_count]; decide
  by_cases hmode : s.mode = .uninit
  · have hx := reseedFrom_x_uninit live seed s hmode
    have hbuf := reseedFrom_buf_uninit live seed s hmode
    exact ⟨fun _ => hx ▸ initCipher_hasConstants _ _, hx ▸ initCipher_counterZero _ _, hhave, fun _ => hcount,
      hbuf ▸ h.frontZero, hbuf ▸ h.bufWf⟩
  · have hx := reseedFrom_x_seeded live seed s hmode
    have hbuf := reseedFrom_buf_seeded live seed s hmode
    exact ⟨fun _ => hx ▸ initCipher_hasConstants _ _, hx ▸ hrekey.counter, hhave, fun _ => hcount,
      hbuf ▸ hrekey.frontZero, hbuf ▸ hrekey.bufWf⟩

/-! ### What a run keeps -/

/-- The part of the environment that belongs to the host, and that no command's run touches. -/
def Env.hostSide (e : Env) : Bool × List CmdWord × Option Nat × List OutTransfer × List Response :=
  (e.resetPin, e.commands, e.takes, e.received, e.responses)

/-- What every part of a run from `s` to `t` keeps, but for a gather that fails. -/
structure Keeps (s t : State) : Prop where
  host : t.env.hostSide = s.env.hostSide
  logged : t.env.logged = s.env.logged
  mode : (t.mode = s.mode ∧ t.env.answers.length ≤ s.env.answers.length) ∨
    (t.mode = .seeded ∧ t.env.answers.length < s.env.answers.length)
  haveLe : s.haveReg.toNat ≤ 1024 → t.haveReg.toNat ≤ 1024
  engine : EngineInv s → EngineInv t

/-- What a run from `s` that ends with a failing gather leaves in `t` (60_exceptions.md R92). -/
structure HaltsAfter (s t : State) : Prop where
  host : t.env.hostSide = s.env.hostSide
  logged : t.env.logged = s.env.logged ++ [0x01]
  mode : t.mode = .halted
  seq : t.seq = .responding [] ⟨.errEntropy, 0⟩
  answers : t.env.answers.length < s.env.answers.length
  engine : EngineInv s → EngineInv t

theorem Keeps.refl (s : State) : Keeps s s := ⟨rfl, rfl, .inl ⟨rfl, le_rfl⟩, id, id⟩

theorem Keeps.answers_le {s t : State} (h : Keeps s t) : t.env.answers.length ≤ s.env.answers.length := by
  rcases h.mode with ⟨_, hle⟩ | ⟨_, hlt⟩
  · exact hle
  · exact hlt.le

theorem Keeps.trans {s t u : State} (h : Keeps s t) (h' : Keeps t u) : Keeps s u where
  host := h'.host.trans h.host
  logged := h'.logged.trans h.logged
  mode := by
    have hst := h.answers_le
    rcases h'.mode with ⟨hsame, htu⟩ | ⟨hseeded, htu⟩
    · rcases h.mode with ⟨hmode, _⟩ | ⟨hmode, hlt⟩
      · exact .inl ⟨hsame.trans hmode, htu.trans hst⟩
      · exact .inr ⟨hsame.trans hmode, htu.trans_lt hlt⟩
    · exact .inr ⟨hseeded, htu.trans_le hst⟩
  haveLe hh := h'.haveLe (h.haveLe hh)
  engine hi := h'.engine (h.engine hi)

theorem HaltsAfter.of_keeps {s t u : State} (h : Keeps s t) (h' : HaltsAfter t u) : HaltsAfter s u where
  host := h'.host.trans h.host
  logged := by rw [h'.logged, h.logged]
  mode := h'.mode
  seq := h'.seq
  answers := h'.answers.trans_le h.answers_le
  engine hi := h'.engine (h.engine hi)

/-- A state in which a command runs: not halted, and with its unread bytes inside the buffer. -/
def Runnable (s : State) : Prop := s.mode ≠ .halted ∧ s.haveReg.toNat ≤ 1024

theorem Keeps.mode_ne_halted {s t : State} (h : Keeps s t) (hs : s.mode ≠ .halted) : t.mode ≠ .halted := by
  rcases h.mode with ⟨hmode, _⟩ | ⟨hmode, _⟩
  · rwa [hmode]
  · simp [hmode]

theorem Runnable.of_keeps {s t : State} (hs : Runnable s) (h : Keeps s t) : Runnable t :=
  ⟨h.mode_ne_halted hs.1, h.haveLe hs.2⟩

theorem keeps_rekey (extra : Option (List Byte)) (s : State) : Keeps s (rekey extra s) :=
  ⟨rfl, rfl, .inl ⟨rfl, le_rfl⟩, fun _ => by rw [rekey_haveReg]; decide, EngineInv.rekey extra⟩

theorem keeps_consumed {s : State} {m : Nat} (hm : m ≤ s.haveReg.toNat) : Keeps s (consumed m s) :=
  ⟨rfl, rfl, .inl ⟨rfl, le_rfl⟩, fun hh => by rw [consumed_haveReg_toNat hm]; omega, fun h => h.consumed hm⟩

theorem keeps_charged {s : State} {n : Word} (hn : n < s.count) : Keeps s (s.charged n) :=
  ⟨rfl, rfl, .inl ⟨rfl, le_rfl⟩, id, fun h => h.charged hn⟩

/-- Raising the request is no more than one sample and one count in the environment. -/
theorem keeps_afterRequest (s : State) : Keeps s { s with env := s.env.afterRequest } :=
  ⟨rfl, rfl, .inl ⟨rfl, le_rfl⟩, id, fun h => h.congr rfl rfl rfl rfl rfl⟩

theorem length_lt_of_answers_cons {s : State} {a : EntAnswer} {rest : List EntAnswer}
    (h : s.env.answers = a :: rest) : rest.length < s.env.answers.length := by
  rw [h]
  exact Nat.lt_succ_self _

theorem keeps_reseedFrom {s : State} {a : EntAnswer} {rest : List EntAnswer} (live : Word)
    (h : s.env.answers = a :: rest) : Keeps s (reseedFrom live a.seed (s.takeAnswer rest)) where
  host := by rw [reseedFrom_env]; rfl
  logged := by rw [reseedFrom_env]; rfl
  mode := .inr ⟨rfl, by rw [reseedFrom_env]; exact length_lt_of_answers_cons h⟩
  haveLe _ := by rw [reseedFrom_haveReg]; decide
  engine hi := EngineInv.reseedFrom live a.seed (hi.congr rfl rfl rfl rfl rfl)

theorem haltsAfter_failure {s : State} {a : EntAnswer} {rest : List EntAnswer} (h : s.env.answers = a :: rest) :
    HaltsAfter s ((s.takeAnswer rest).takeException .entropyUnavailable) where
  host := rfl
  logged := rfl
  mode := rfl
  seq := rfl
  answers := length_lt_of_answers_cons h
  engine hi := hi.halt rfl rfl rfl rfl

/-! ### What the parts of a command do -/

/-- A part of a command's run from `s`: completed with a result in `D`, blocked, or raised, as `Keeps` and `HaltsAfter`
say. -/
abbrev Micro.RunsFrom {α : Type} (r : Micro α) (s : State) (D : α → Prop) : Prop :=
  r.Meets (fun a t => Keeps s t ∧ D a) (fun _ t => Keeps s t) (HaltsAfter s)

/-- What runs from a later state runs from an earlier one. -/
theorem Micro.RunsFrom.of_keeps {α : Type} {r : Micro α} {s t : State} {D : α → Prop} (h : Keeps s t)
    (hr : r.RunsFrom t D) : r.RunsFrom s D :=
  meets_mono hr (fun _ _ ⟨hk, hD⟩ => ⟨h.trans hk, hD⟩) (fun _ _ hk => h.trans hk) fun _ hhalt => hhalt.of_keeps h

theorem runsFrom_andThen {α β : Type} {r : Micro α} {k : α → State → Micro β} {s : State} {D : α → Prop}
    {D' : β → Prop} (hr : r.RunsFrom s D) (hk : ∀ a t, Keeps s t → D a → (k a t).RunsFrom t D') :
    (r.andThen k).RunsFrom s D' :=
  meets_andThen hr fun a t ⟨hkeeps, hD⟩ => (hk a t hkeeps hD).of_keeps hkeeps

theorem awaitEntropy_runsFrom (live : Word) (s : State) : (awaitEntropy live s).RunsFrom s fun _ => True := by
  cases ha : s.env.answers with
  | nil =>
    rw [awaitEntropy_nil live s ha]
    exact (meets_blocked live s).mpr (Keeps.refl s)
  | cons a rest =>
    cases hok : a.fail with
    | true =>
      rw [awaitEntropy_fail live s ha hok]
      exact (meets_raised _).mpr (haltsAfter_failure ha)
    | false =>
      rw [awaitEntropy_ok live s ha hok]
      exact (meets_done _ _).mpr ⟨keeps_reseedFrom live ha, trivial⟩

theorem stirIfNeeded_runsFrom {s : State} (n : Word) (hs : s.mode ≠ .halted) :
    (stirIfNeeded n s).RunsFrom s fun _ => True := by
  rcases settled_or_triggering n hs with hsettled | htrigger
  · rw [stirIfNeeded_eq_charged hsettled]
    exact (meets_done _ _).mpr ⟨keeps_charged hsettled.2.1, trivial⟩
  · rw [stirIfNeeded_of_triggering htrigger]
    exact (awaitEntropy_runsFrom _ _).of_keeps (keeps_afterRequest s)

theorem keeps_readyToDraw (s : State) : Keeps s (readyToDraw s) := by
  unfold readyToDraw
  split
  · exact keeps_rekey none s
  · exact Keeps.refl s

theorem drawWord_runsFrom {s : State} (hh : s.haveReg.toNat ≤ 1024) : (drawWord s).RunsFrom s fun _ => True := by
  rw [drawWord_eq hh]
  exact (meets_done _ _).mpr ⟨(keeps_readyToDraw s).trans (keeps_consumed (readyToDraw_haveReg_ge s)), trivial⟩

theorem nextU32_runsFrom {s : State} (hs : Runnable s) : (nextU32 s).RunsFrom s fun _ => True :=
  runsFrom_andThen (stirIfNeeded_runsFrom 4 hs.1) fun _ _ hkeeps _ => drawWord_runsFrom (hkeeps.haveLe hs.2)

/-- What a command's reply looks like (30_encoding.md R50, R51; 42_public_api.md R84, R86). -/
def ReplyFits (cmd : Instr) (a : Reply) : Prop :=
  match cmd with
  | .randomU32 => a.out = []
  | .randomFill len => a.data = 0 ∧ a.out.length = len.toNat
  | .randomUniform bound => a.out = [] ∧ (2 ≤ bound → a.data < bound) ∧ (bound < 2 → a.data = 0)

theorem u32Tail_runsFrom {s : State} (hh : s.haveReg.toNat ≤ 1024) :
    (u32Tail s).RunsFrom s (ReplyFits .randomU32) :=
  runsFrom_andThen (drawWord_runsFrom hh) fun _ t _ _ => (meets_done _ _).mpr ⟨Keeps.refl t, rfl⟩

theorem fillTail_runsFrom {s : State} (len : Word) (hh : s.haveReg.toNat ≤ 1024) :
    (fillTail len s).RunsFrom s (ReplyFits (.randomFill len)) := by
  obtain ⟨out, t, hloop, hlength, hkeeps, _⟩ := fillLoop_done (P := Keeps s)
    (fun t ht => ht.trans (keeps_rekey none t)) (fun _ _ hm _ ht => ht.trans (keeps_consumed hm))
    (len.toNat + 2) len.toNat s (.inl le_rfl) hh (Keeps.refl s)
  rw [fillTail_of_done hloop]
  exact (meets_done _ _).mpr ⟨hkeeps, rfl, hlength⟩

theorem uniformLoop_runsFrom {s : State} {bound : Word} (hb : 2 ≤ bound) (hs : Runnable s) :
    (uniformLoop (drawBound s) bound s).RunsFrom s (ReplyFits (.randomUniform bound)) := by
  have hne : bound ≠ 0 := by rintro rfl; exact absurd hb (by decide)
  have hdraw : ∀ t, Keeps s t → (nextU32 t).Meets (fun _ u => Keeps s u) (fun _ u => Keeps s u) (HaltsAfter s) :=
    fun t ht => meets_mono ((nextU32_runsFrom (hs.of_keeps ht)).of_keeps ht) (fun _ _ h => h.1) (fun _ _ h => h)
      fun _ h => h
  refine meets_mono (uniformLoop_meets hne hdraw (drawBound s) s le_rfl (Keeps.refl s)) ?_ (fun _ _ h => h) fun _ h => h
  rintro a t ⟨hkeeps, hout, hdata⟩
  exact ⟨hkeeps, hout, fun _ => hdata, fun hlt => absurd hb (BitVec.not_le.mpr hlt)⟩

theorem uniformTail_runsFrom {s : State} {bound : Word} (hb : 2 ≤ bound) (hs : Runnable s) :
    (uniformTail bound s).RunsFrom s (ReplyFits (.randomUniform bound)) := by
  refine runsFrom_andThen (drawWord_runsFrom hs.2) fun v t ht _ => ?_
  rw [judge]
  split
  · refine (meets_done _ _).mpr ⟨Keeps.refl t, rfl, fun _ => ?below, fun hlt => absurd hb (BitVec.not_le.mpr hlt)⟩
    case below => exact BitVec.umod_lt _ (BitVec.lt_def.mpr (toNat_pos_of_two_le hb))
  · exact uniformLoop_runsFrom hb (hs.of_keeps ht)

theorem firstRequest_randomUniform {bound n : Word} (h : firstRequest (.randomUniform bound) = some n) : 2 ≤ bound := by
  have hcases : ¬ bound < 2 ∧ 4 = n := by simpa [firstRequest] using h
  exact BitVec.not_lt.mp hcases.1

theorem tailOf_runsFrom {cmd : Instr} {n : Word} {s : State} (hn : firstRequest cmd = some n) (hs : Runnable s) :
    (tailOf cmd s).RunsFrom s (ReplyFits cmd) := by
  cases cmd with
  | randomU32 => exact u32Tail_runsFrom hs.2
  | randomFill len => exact fillTail_runsFrom len hs.2
  | randomUniform bound => exact uniformTail_runsFrom (firstRequest_randomUniform hn) hs

/-! ### How a command ends -/

/-- The three ways a command that runs from `s` ends: with an OK answer, waiting for entropy, or halted. -/
inductive Ends (cmd : Instr) (s : State) : Host.Outcome State Fault Refusal → Prop
  | answers {a : Reply} {u : State} : Keeps s u → ReplyFits cmd a → Ends cmd s (.next (u.respond .ok a.data a.out))
  | waits {live n : Word} {u : State} : firstRequest cmd = some n → Keeps s u →
      Ends cmd s (.next { u with seq := .waiting cmd live })
  | halts {u : State} : HaltsAfter s u → Ends cmd s (.next u)

theorem finish_ends {cmd : Instr} {n : Word} {s : State} {r : Micro Reply} (hn : firstRequest cmd = some n)
    (h : r.RunsFrom s (ReplyFits cmd)) : Ends cmd s (finish cmd r) := by
  rcases finish_of_meets (cmd := cmd) h with ⟨a, u, ⟨hkeeps, hfits⟩, he⟩ | ⟨live, u, hkeeps, he⟩ | ⟨u, hhalts, he⟩
  · exact he ▸ .answers hkeeps hfits
  · exact he ▸ .waits hn hkeeps
  · exact he ▸ .halts hhalts

theorem exec_ends (i : Instr) {s : State} (hs : Runnable s) : Ends i s (exec i s) := by
  cases hn : firstRequest i with
  | some n =>
    rw [exec_eq_stirIfNeeded_andThen_tailOf hn hs.1]
    exact finish_ends hn
      (runsFrom_andThen (stirIfNeeded_runsFrom n hs.1) fun _ _ hkeeps _ => tailOf_runsFrom hn (hs.of_keeps hkeeps))
  | none =>
    obtain ⟨bound, rfl, hb⟩ := firstRequest_eq_none hn
    rw [exec_randomUniform_of_lt_two hs.1 hb]
    exact .answers (a := ⟨0, []⟩) (Keeps.refl s) ⟨rfl, fun htwo => absurd htwo (BitVec.not_le.mpr hb), fun _ => rfl⟩

theorem resume_ends {cmd : Instr} {n live : Word} {s : State} (hn : firstRequest cmd = some n) (hs : Runnable s) :
    Ends cmd s (resume cmd live s) :=
  finish_ends hn
    (runsFrom_andThen (awaitEntropy_runsFrom live s) fun _ _ hkeeps _ => tailOf_runsFrom hn (hs.of_keeps hkeeps))

/-- Settles O56: a halted engine answers, and the three ends of a run are next states. -/
theorem everyCommandAnswersOrWaits : Obligations.EveryCommandAnswersOrWaits := by
  unfold Obligations.EveryCommandAnswersOrWaits
  intro i s hh
  by_cases hs : s.mode = .halted
  · exact ⟨_, exec_halted hs, .inl ⟨_, _, rfl⟩⟩
  · have hends := exec_ends i (s := s) ⟨hs, hh⟩
    generalize exec i s = o at hends
    cases hends with
    | answers _ _ => exact ⟨_, rfl, .inl ⟨_, _, rfl⟩⟩
    | waits _ _ => exact ⟨_, rfl, .inr ⟨_, rfl⟩⟩
    | halts hhalts => exact ⟨_, rfl, .inl ⟨_, _, hhalts.seq⟩⟩

/-- Settles O53: an OK answer is the reply of a completed run. -/
theorem randomUniformInRange : Obligations.RandomUniformInRange := by
  unfold Obligations.RandomUniformInRange
  intro s t bound v out hh hexec hseq
  by_cases hs : s.mode = .halted
  · obtain rfl := Host.Outcome.next.inj ((exec_halted hs).symm.trans hexec)
    simp at hseq
  · have hends := exec_ends (.randomUniform bound) (s := s) ⟨hs, hh⟩
    rw [hexec] at hends
    cases hends with
    | answers _ hfits =>
      simp only [respond_seq, Sequencer.responding.injEq, Response.mk.injEq, true_and] at hseq
      obtain ⟨rfl, rfl⟩ := hseq
      exact hfits
    | waits _ _ => cases hseq
    | halts hhalts => simp [hhalts.seq] at hseq

end Sys2Proof.Machine
end

