-- ==== Sys2Proof/Proofs/Steps.lean ====
section
/-! What one step can do (`Effect`): the invariant of 10_state.md R26 is kept, the mode moves along R29's lifecycle, and
the log grows exactly on entering HALTED (30_encoding.md R54). -/

namespace Sys2Proof.Machine

/-! ### The effect of one transition -/

/-- What every transition without reset from `s` to `t` does to the invariant, the log and the mode. -/
structure Effect (s t : State) : Prop where
  engine : EngineInv s → EngineInv t
  sequencer : SequencerInv t
  logged : t.env.logged = s.env.logged ++ (if s.mode ≠ .halted ∧ t.mode = .halted then [0x01] else [])
  halted : s.mode = .halted → t.mode = .halted
  uninit : t.mode = .uninit → s.mode = .uninit
  answers : t.mode ≠ s.mode → t.env.answers.length < s.env.answers.length

theorem logged_of_mode_eq {s t : State} (hlogged : t.env.logged = s.env.logged) (hmode : t.mode = s.mode) :
    t.env.logged = s.env.logged ++ (if s.mode ≠ .halted ∧ t.mode = .halted then [0x01] else []) := by
  rw [hmode, if_neg fun h => h.1 h.2, List.append_nil, hlogged]

/-- A transition that changes neither the mode nor the log. -/
theorem Effect.of_mode_eq {s t : State} (hengine : EngineInv s → EngineInv t) (hseq : SequencerInv t)
    (hlogged : t.env.logged = s.env.logged) (hmode : t.mode = s.mode) : Effect s t where
  engine := hengine
  sequencer := hseq
  logged := logged_of_mode_eq hlogged hmode
  halted h := hmode.trans h
  uninit h := hmode.symm.trans h
  answers h := absurd hmode h

/-- A run that halts. -/
theorem HaltsAfter.effect {s t : State} (hs : s.mode ≠ .halted) (h : HaltsAfter s t) : Effect s t where
  engine := h.engine
  sequencer := by
    rw [SequencerInv, h.seq]
    exact ⟨fun _ => ⟨rfl, rfl⟩, fun _ => h.mode, fun _ => rfl⟩
  logged := by rw [if_pos ⟨hs, h.mode⟩, h.logged]
  halted _ := h.mode
  uninit hu := by simp [h.mode] at hu
  answers _ := h.answers

/-- A run that does not halt, with what it leaves in the sequencer. -/
theorem Keeps.effect {s t : State} {q : Sequencer} (hs : s.mode ≠ .halted) (h : Keeps s t)
    (hseq : SequencerInv { t with seq := q }) : Effect s { t with seq := q } where
  engine hi := (h.engine hi).congr rfl rfl rfl rfl rfl
  sequencer := hseq
  logged := by
    rw [if_neg fun hhalt => h.mode_ne_halted hs hhalt.2, List.append_nil]
    exact h.logged
  halted hhalt := absurd hhalt hs
  uninit hu := by
    rcases h.mode with ⟨hmode, _⟩ | ⟨hmode, _⟩
    · exact hmode.symm.trans hu
    · simp [hmode] at hu
  answers hne := by
    rcases h.mode with ⟨hmode, _⟩ | ⟨_, hlt⟩
    · exact absurd hmode hne
    · exact hlt

/-- A response is on the ports, or a command is blocked. -/
def InProgress (s : State) : Prop :=
  (∃ out rsp, s.seq = .responding out rsp) ∨ ∃ cmd live, s.seq = .waiting cmd live

theorem Ends.effect {cmd : Instr} {s : State} {o : Host.Outcome State Fault Refusal} (hs : s.mode ≠ .halted)
    (h : Ends cmd s o) : ∃ t, o = .next t ∧ Effect s t ∧ t.env.hostSide = s.env.hostSide ∧ InProgress t := by
  cases h with
  | @answers a u hkeeps _ =>
    have hu : u.mode ≠ .halted := hkeeps.mode_ne_halted hs
    have hseq : SequencerInv { u with seq := .responding a.out ⟨.ok, a.data⟩ } :=
      ⟨fun hne => absurd rfl hne, nofun, fun hhalt => absurd hhalt hu⟩
    exact ⟨_, rfl, hkeeps.effect hs hseq, hkeeps.host, .inl ⟨_, _, rfl⟩⟩
  | @waits live n u hn hkeeps =>
    have hseq : SequencerInv { u with seq := .waiting cmd live } :=
      ⟨hkeeps.mode_ne_halted hs, fun _ hcmd => firstRequest_randomUniform (hcmd ▸ hn)⟩
    exact ⟨_, rfl, hkeeps.effect hs hseq, hkeeps.host, .inr ⟨_, _, rfl⟩⟩
  | halts hhalts => exact ⟨_, rfl, hhalts.effect hs, hhalts.host, .inl ⟨_, _, hhalts.seq⟩⟩

/-- An error answer that is due in this mode. -/
theorem effect_respond_error {s : State} {status : Status} (h : status = .errEntropy ↔ s.mode = .halted) :
    Effect s (s.respond status 0 []) :=
  .of_mode_eq (fun hi => hi.congr rfl rfl rfl rfl rfl) ⟨fun _ => ⟨rfl, rfl⟩, h⟩ rfl rfl

/-- Dispatch of any word, legal or not, in any mode. -/
theorem dispatch_effect (w : CmdWord) {s : State} (hh : s.haveReg.toNat ≤ 1024) :
    ∃ t, dispatch w s = .next t ∧ Effect s t ∧ t.env.hostSide = s.env.hostSide ∧ InProgress t := by
  by_cases hs : s.mode = .halted
  · exact ⟨_, dispatch_halted hs, effect_respond_error (by simp [hs]), rfl, .inl ⟨_, _, rfl⟩⟩
  · cases hw : decode w with
    | ok i =>
      rw [dispatch_legal hw]
      exact (exec_ends i ⟨hs, hh⟩).effect hs
    | error e => exact ⟨_, dispatch_illegal hs hw, effect_respond_error (by simp [hs]), rfl, .inl ⟨_, _, rfl⟩⟩

/-! ### Delivery -/

/-- What the host takes changes the ports alone, and leaves a shorter response or none. -/
theorem deliver_sequencerInv {s : State} (h : SequencerInv s) : SequencerInv s.deliver := by
  have hmode := deliver_mode s
  unfold SequencerInv at h ⊢
  rw [hmode]
  cases hq : s.seq with
  | idle => simp [State.deliver, hq]
  | waiting cmd live => simpa [State.deliver, hq] using h
  | responding out rsp =>
    rw [hq] at h
    obtain ⟨herror, hhalted⟩ := h
    by_cases hstall : bytesTaken s.env.takes out.length < out.length ∨
        s.env.takes.map (· - bytesTaken s.env.takes out.length) = some 0
    · have hseq : s.deliver.seq = .responding (out.drop (bytesTaken s.env.takes out.length)) rsp := by
        simp only [State.deliver, hq, if_pos hstall]
      rw [hseq]
      exact ⟨fun hne => ⟨by rw [(herror hne).1, List.drop_nil], (herror hne).2⟩, hhalted⟩
    · have hseq : s.deliver.seq = .idle := by simp only [State.deliver, hq, if_neg hstall]
      rw [hseq]
      trivial

theorem deliver_engineInv {s : State} (h : EngineInv s) : EngineInv s.deliver :=
  h.congr (deliver_x s) (deliver_buf s) (deliver_haveReg s) (deliver_count s) (deliver_mode s)

theorem Effect.deliver {s t : State} (h : Effect s t) : Effect s t.deliver where
  engine hi := deliver_engineInv (h.engine hi)
  sequencer := deliver_sequencerInv h.sequencer
  logged := by rw [deliver_logged, deliver_mode]; exact h.logged
  halted := by rw [deliver_mode]; exact h.halted
  uninit := by rw [deliver_mode]; exact h.uninit
  answers := by rw [deliver_mode, deliver_answers]; exact h.answers

theorem Inv.effect_self {s : State} (h : Inv s) : Effect s s := .of_mode_eq id h.sequencer rfl rfl

/-! ### One step -/

/-- A blocked command is one that gathers, in an engine that is not halted. -/
theorem Inv.of_waiting {s : State} {cmd : Instr} {live : Word} (h : Inv s) (hq : s.seq = .waiting cmd live) :
    s.mode ≠ .halted ∧ ∃ n, firstRequest cmd = some n := by
  have hseq := h.sequencer
  rw [SequencerInv, hq] at hseq
  obtain ⟨hmode, hbound⟩ := hseq
  refine ⟨hmode, ?_⟩
  cases cmd with
  | randomU32 => exact ⟨_, rfl⟩
  | randomFill len => exact ⟨_, rfl⟩
  | randomUniform bound => exact ⟨4, if_neg (BitVec.not_lt.mpr (hbound bound rfl))⟩

/-- Every step without reset from a state with the invariant. -/
theorem step_effect {s : State} (h : Inv s) (hpin : s.env.resetPin = false) : ∃ t, step s = .next t ∧ Effect s t := by
  have hh : s.haveReg.toNat ≤ 1024 := h.engine.haveLe.trans (by decide)
  rcases step_cases s with ⟨hreset, _⟩ | ⟨_, _, hstep⟩ | ⟨_, cmd, live, hq, hstep⟩ | ⟨_, _, _, hstep⟩ |
    ⟨_, _, w, rest, _, hstep⟩
  · rw [hpin] at hreset
    contradiction
  · exact ⟨_, hstep, h.effect_self.deliver⟩
  · obtain ⟨hs, n, hn⟩ := h.of_waiting hq
    obtain ⟨t, hresume, heffect, _⟩ := (resume_ends (live := live) hn ⟨hs, hh⟩).effect hs
    rw [hresume, deliverOutcome_next] at hstep
    exact ⟨_, hstep, heffect.deliver⟩
  · exact ⟨_, hstep, h.effect_self⟩
  · obtain ⟨t, hdispatch, heffect, _⟩ := dispatch_effect w (s := s.accept rest) hh
    rw [hdispatch, deliverOutcome_next] at hstep
    have hs : Effect s t := ⟨fun hi => heffect.engine (hi.congr rfl rfl rfl rfl rfl), heffect.sequencer,
      heffect.logged, heffect.halted, heffect.uninit, heffect.answers⟩
    exact ⟨_, hstep, hs.deliver⟩

/-- Settles O15: a reset gives the reset values, and any other step keeps the invariant. -/
theorem stepKeepsInv : Obligations.StepKeepsInv := by
  unfold Obligations.StepKeepsInv
  intro s t h hstep
  cases hpin : s.env.resetPin with
  | true =>
    obtain rfl := Host.Outcome.next.inj ((step_of_reset hpin).symm.trans hstep)
    exact ⟨engineInv_of_reset_values rfl rfl rfl rfl, trivial⟩
  | false =>
    obtain ⟨u, hu, heffect⟩ := step_effect h hpin
    obtain rfl := Host.Outcome.next.inj (hu.symm.trans hstep)
    exact ⟨heffect.engine h.engine, heffect.sequencer⟩

/-- Settles O16. -/
theorem stepNeverStops : Obligations.StepNeverStops := by
  unfold Obligations.StepNeverStops
  intro s h
  cases hpin : s.env.resetPin with
  | true => exact ⟨_, step_of_reset hpin⟩
  | false =>
    obtain ⟨t, ht, _⟩ := step_effect h hpin
    exact ⟨t, ht⟩

/-- Settles O17. -/
theorem lifecycleTransitions : Obligations.LifecycleTransitions := by
  unfold Obligations.LifecycleTransitions
  intro s t h hpin hstep
  obtain ⟨u, hu, heffect⟩ := step_effect h hpin
  obtain rfl := Host.Outcome.next.inj (hu.symm.trans hstep)
  exact ⟨heffect.halted, heffect.uninit, heffect.answers⟩

/-- Settles O18: a reset goes to UNINIT and leaves the log. -/
theorem logsExactlyOnHalting : Obligations.LogsExactlyOnHalting := by
  unfold Obligations.LogsExactlyOnHalting
  intro s t h hstep
  cases hpin : s.env.resetPin with
  | true =>
    obtain rfl := Host.Outcome.next.inj ((step_of_reset hpin).symm.trans hstep)
    simp
  | false =>
    obtain ⟨u, hu, heffect⟩ := step_effect h hpin
    obtain rfl := Host.Outcome.next.inj (hu.symm.trans hstep)
    exact heffect.logged

/-! ### One record a word -/

theorem takes_of_hostSide {e f : Env} (h : e.hostSide = f.hostSide) : e.takes = f.takes :=
  congrArg (fun p => p.2.2.1) h

theorem commands_of_hostSide {e f : Env} (h : e.hostSide = f.hostSide) : e.commands = f.commands :=
  congrArg (fun p => p.2.1) h

theorem responses_of_hostSide {e f : Env} (h : e.hostSide = f.hostSide) : e.responses = f.responses :=
  congrArg (fun p => p.2.2.2.2) h

/-- Settles O21: what dispatch leaves on the ports a ready host takes at once. -/
theorem acceptedWordAnsweredOnce : Obligations.AcceptedWordAnsweredOnce := by
  unfold Obligations.AcceptedWordAnsweredOnce
  intro s t w rest hh hpin hidle htakes hcommands hstep
  obtain ⟨u, hdispatch, _, hhost, hprogress⟩ := dispatch_effect w (s := s.accept rest) hh
  rw [step_of_accept hpin hidle hcommands, hdispatch, deliverOutcome_next] at hstep
  obtain rfl := Host.Outcome.next.inj hstep
  refine ⟨(deliver_commands u).trans (commands_of_hostSide hhost), ?_⟩
  have hresponses : u.env.responses = s.env.responses := (responses_of_hostSide hhost).trans rfl
  rcases hprogress with ⟨out, rsp, hq⟩ | ⟨cmd, live, hq⟩
  · rw [deliver_of_ready u hq ((takes_of_hostSide hhost).trans htakes)]
    exact .inl ⟨rfl, rsp, by rw [hresponses]⟩
  · rw [deliver_of_waiting u hq]
    exact .inr ⟨⟨cmd, live, hq⟩, hresponses⟩

end Sys2Proof.Machine
end

