-- ==== Sys2Proof/Proofs/Waiting.lean ====
section
/-! A command whose gather is not answered (60_exceptions.md R96): it waits, and an answer that comes late gives the run
that the same answer, ready before, gives (30_encoding.md R52). -/

namespace Sys2Proof.Machine

/-! ### Waiting for ever -/

theorem exec_of_unanswered_gather {s : State} {i : Instr} {n : Word} (hn : firstRequest i = some n)
    (h : Triggering n s) (ha : s.env.answers = []) :
    exec i s = .next { s with seq := .waiting i s.nextPid, env := s.env.afterRequest } := by
  rw [exec_eq_stirIfNeeded_andThen_tailOf hn h.mode_ne_halted, stirIfNeeded_of_unanswered_gather h ha, andThen_blocked]
  rfl

theorem step_of_unanswered {s : State} {cmd : Instr} {live : Word} (hpin : s.env.resetPin = false)
    (hq : s.seq = .waiting cmd live) (ha : s.env.answers = []) : step s = .next s := by
  have hresume : resume cmd live s = .next s := by
    rw [resume, awaitEntropy_nil live s ha, andThen_blocked, finish, ← hq]
  have hstep : step s = deliverOutcome (resume cmd live s) := by simp [step, hpin, hq]
  rw [hstep, hresume, deliverOutcome_next, deliver_of_waiting s hq]

theorem run_of_fixed {M : Host.Core} {s : M.State} (h : M.step s = .next s) (k : Nat) : M.run k s = .next s := by
  induction k with
  | zero => rfl
  | succ k ih =>
    rw [Host.Core.run, h]
    exact ih

/-- Settles O41: the waiting state is a fixed point of the step. -/
theorem unansweredGatherHangs : Obligations.UnansweredGatherHangs := by
  unfold Obligations.UnansweredGatherHangs
  intro s i n hn h ha
  exact ⟨_, exec_of_unanswered_gather hn h ha, rfl, rfl, rfl,
    fun hpin k => run_of_fixed (M := core) (step_of_unanswered hpin rfl ha) k⟩

/-! ### The answer to a withdrawn request -/

/-- A reset of a wait with no answer leaves one answer owed beyond those that have come. -/
theorem applyReset_owes_answer {s : State} {cmd : Instr} {live : Word} (hq : s.seq = .waiting cmd live)
    (hle : s.env.withdrawn ≤ s.env.entropy.length) (hnone : s.env.answers = []) :
    s.applyReset.env.withdrawn = s.applyReset.env.entropy.length + 1 := by
  have hlength : s.env.entropy.length = s.env.withdrawn := by
    rw [Env.answers, List.drop_eq_nil_iff] at hnone
    omega
  simp [withdrawnAfterReset, hq, hlength]

theorem answers_after_late {s : State} (late a : EntAnswer) (h : s.env.withdrawn = s.env.entropy.length + 1) :
    ((s.queueEntropy late).queueEntropy a).env.answers = [a] := by
  have hcome : (s.queueEntropy late).env.withdrawn ≤ (s.queueEntropy late).env.entropy.length := by
    simp only [State.queueEntropy, List.length_append, List.length_singleton]
    omega
  rw [queueEntropy_answers a hcome, queueEntropy_answers_late late (by omega), List.nil_append]

theorem answers_after_forgetting {s : State} (a : EntAnswer) (h : s.env.entropy.length ≤ s.env.withdrawn) :
    (s.forgetWithdrawn.queueEntropy a).env.answers = [a] := by
  have hnothing : s.env.answers = [] := List.drop_eq_nil_of_le h
  rw [queueEntropy_answers a (Nat.zero_le _), State.forgetWithdrawn, takeAnswer_answers, hnothing, List.nil_append]

/-- What a gather takes with its answer, it does not see: the answers to withdrawn requests before it. -/
theorem exec_congr_of_takeAnswer {s s' : State} {i : Instr} {n : Word} {a : EntAnswer} {rest : List EntAnswer}
    (hn : firstRequest i = some n) (h : Triggering n s) (h' : Triggering n s') (ha : s.env.answers = a :: rest)
    (ha' : s'.env.answers = a :: rest) (hsame : s.takeAnswer rest = s'.takeAnswer rest) : exec i s = exec i s' := by
  have hstir : stirIfNeeded n s = stirIfNeeded n s' := by
    cases hok : a.fail with
    | true =>
      have hstate : (s.takeAnswer rest).gatherFailed rest = (s'.takeAnswer rest).gatherFailed rest := by rw [hsame]
      rw [stirIfNeeded_of_failed_gather h ha hok, stirIfNeeded_of_failed_gather h' ha' hok]
      exact congrArg Micro.raised hstate
    | false =>
      have hstate : (s.takeAnswer rest).reseeded a rest = (s'.takeAnswer rest).reseeded a rest := by rw [hsame]
      rw [stirIfNeeded_of_answered_gather h ha hok, stirIfNeeded_of_answered_gather h' ha' hok]
      exact congrArg (Micro.done ()) hstate
  rw [exec_eq_stirIfNeeded_andThen_tailOf hn h.mode_ne_halted, exec_eq_stirIfNeeded_andThen_tailOf hn h'.mode_ne_halted,
    hstir]

/-- Settles O12: the late answer is the one still owed to the withdrawn request, so the gather takes the next one. -/
theorem lateAnswerIgnoredAfterReset : Obligations.LateAnswerIgnoredAfterReset := by
  unfold Obligations.LateAnswerIgnoredAfterReset
  intro s cmd live hpin hq hle hnone
  have howed := applyReset_owes_answer hq hle hnone
  refine ⟨s.applyReset, step_of_reset hpin, fun late i n hn => ⟨?waits, fun a => ?same⟩⟩
  case waits =>
    have hlate := queueEntropy_answers_late (s := s.applyReset) late (by omega)
    exact ⟨_, _, exec_of_unanswered_gather hn (.inl rfl) hlate, rfl⟩
  case same =>
    exact exec_congr_of_takeAnswer hn (.inl rfl) (.inl rfl) (answers_after_late late a howed)
      (answers_after_forgetting a (by omega)) rfl

/-! ### Changes of the state that a run carries along -/

/-- A run with every state it ends in changed: by `g`, or by `gr` where an exception was raised. -/
def Micro.mapStates {α : Type} (g gr : State → State) : Micro α → Micro α
  | .done a s => .done a (g s)
  | .blocked live s => .blocked live (g s)
  | .raised s => .raised (gr s)
  | .stopped f => .stopped f

section mapStates

variable {α β : Type} (g gr : State → State)

@[simp] theorem mapStates_done (a : α) (s : State) : (Micro.done a s).mapStates g gr = .done a (g s) := rfl

theorem mapStates_andThen (r : Micro α) {k : α → State → Micro β} (hk : ∀ a t, k a (g t) = (k a t).mapStates g gr) :
    (r.mapStates g gr).andThen k = (r.andThen k).mapStates g gr := by
  cases r with
  | done a t => exact hk a t
  | blocked live t => rfl
  | raised t => rfl
  | stopped f => rfl

theorem mapStates_ite (c : Prop) [Decidable c] (r r' : Micro α) :
    (if c then r else r').mapStates g gr = if c then r.mapStates g gr else r'.mapStates g gr :=
  apply_ite (Micro.mapStates g gr) c r r'

end mapStates

/-- A change of the state that refilling and consuming do not see. -/
structure Unseen (g : State → State) : Prop where
  haveReg : ∀ s, (g s).haveReg = s.haveReg
  rekey : ∀ s, rekey none (g s) = g (rekey none s)
  consume : ∀ m s gr, consume m (g s) = (consume m s).mapStates g gr

section unseen

variable {g : State → State} (gr : State → State)

theorem Unseen.drawWord (hg : Unseen g) (s : State) : drawWord (g s) = (drawWord s).mapStates g gr := by
  have hready : readyToDraw (g s) = g (readyToDraw s) := by
    unfold readyToDraw
    rw [hg.haveReg, hg.rekey]
    split <;> rfl
  have hrun : ∀ t, Machine.drawWord t = (Machine.consume 4 (readyToDraw t)).andThen
      fun b u => .done (leWordAt b 0) u := fun _ => rfl
  rw [hrun, hrun, hready, hg.consume 4 _ gr]
  exact mapStates_andThen g gr _ fun _ _ => rfl

theorem Unseen.fillLoop (hg : Unseen g) (fuel r : Nat) (s : State) :
    fillLoop fuel r (g s) = (fillLoop fuel r s).mapStates g gr := by
  induction fuel generalizing r s with
  | zero => rfl
  | succ fuel ih =>
    rw [Machine.fillLoop, Machine.fillLoop]
    by_cases hr : r = 0
    · rw [if_pos hr, if_pos hr]
      rfl
    · rw [if_neg hr, if_neg hr]
      simp only [hg.haveReg]
      have htake : (if 0 < s.haveReg then Machine.consume (min r s.haveReg.toNat) (g s) else .done [] (g s)) =
          (if 0 < s.haveReg then Machine.consume (min r s.haveReg.toNat) s else .done [] s).mapStates g gr := by
        split
        · exact hg.consume _ s gr
        · rfl
      rw [htake]
      refine mapStates_andThen g gr _ fun got t => ?_
      have hrefill : (if (g t).haveReg = 0 ∧ 0 < r - got.length then Machine.rekey none (g t) else g t) =
          g (if t.haveReg = 0 ∧ 0 < r - got.length then Machine.rekey none t else t) := by
        rw [hg.haveReg, hg.rekey]
        split <;> rfl
      rw [hrefill, ih]
      exact mapStates_andThen g gr _ fun _ _ => rfl

theorem Unseen.u32Tail (hg : Unseen g) (s : State) : u32Tail (g s) = (u32Tail s).mapStates g gr := by
  rw [Machine.u32Tail, hg.drawWord gr]
  exact mapStates_andThen g gr _ fun _ _ => rfl

theorem Unseen.fillTail (hg : Unseen g) (len : Word) (s : State) :
    fillTail len (g s) = (fillTail len s).mapStates g gr := by
  rw [Machine.fillTail, hg.fillLoop gr]
  exact mapStates_andThen g gr _ fun _ _ => rfl

end unseen

/-! ### The sequencer's place is not read by a run -/

/-- `s` with the sequencer at `q`. -/
def State.atSeq (q : Sequencer) (s : State) : State := { s with seq := q }

theorem unseen_atSeq (q : Sequencer) : Unseen (State.atSeq q) where
  haveReg _ := rfl
  rekey _ := rfl
  consume m s gr := by
    rw [consume, consume, mapStates_ite]
    rfl

/-- The exception's entry sets the sequencer itself. -/
theorem awaitEntropy_atSeq (q : Sequencer) (live : Word) (s : State) :
    awaitEntropy live (s.atSeq q) = (awaitEntropy live s).mapStates (State.atSeq q) id := by
  have hanswers : (s.atSeq q).env.answers = s.env.answers := rfl
  cases ha : s.env.answers with
  | nil =>
    rw [awaitEntropy_nil live s ha, awaitEntropy_nil live _ (hanswers.trans ha)]
    rfl
  | cons a rest =>
    cases hok : a.fail with
    | true =>
      rw [awaitEntropy_fail live s ha hok, awaitEntropy_fail live _ (hanswers.trans ha) hok]
      rfl
    | false =>
      rw [awaitEntropy_ok live s ha hok, awaitEntropy_ok live _ (hanswers.trans ha) hok, mapStates_done]
      congr 1
      unfold reseedFrom
      by_cases hmode : s.mode = .uninit
      · simp [hmode, State.atSeq]
      · simp [hmode, State.atSeq, rekey]

theorem sampleLivePid_atSeq (q : Sequencer) (s : State) :
    (s.atSeq q).sampleLivePid = (s.sampleLivePid.1, s.sampleLivePid.2.atSeq q) := by
  refine Prod.ext ?_ ?_
  · rw [sampleLivePid_fst, sampleLivePid_fst]
    rfl
  · simp only [sampleLivePid_snd]
    rfl

theorem stirIfNeeded_atSeq (q : Sequencer) (n : Word) (s : State) :
    stirIfNeeded n (s.atSeq q) = (stirIfNeeded n s).mapStates (State.atSeq q) id := by
  have hsample := sampleLivePid_atSeq q s
  cases ht : reseedTriggered n s.sampleLivePid.1 s.sampleLivePid.2 with
  | false =>
    rw [stirIfNeeded_of_not_triggered ht, stirIfNeeded_of_not_triggered (by rw [hsample]; exact ht), hsample]
    rfl
  | true =>
    rw [stirIfNeeded_of_triggered ht, stirIfNeeded_of_triggered (by rw [hsample]; exact ht), hsample]
    exact awaitEntropy_atSeq q s.sampleLivePid.1 s.sampleLivePid.2.raiseEntReq

/-- The sampler goes on after a rejected draw with the next draw's `STIR_IF_NEEDED`. -/
theorem uniformLoop_eq_stirIfNeeded_andThen (bound : Word) (s : State) :
    uniformLoop (drawBound s) bound s = (stirIfNeeded 4 s).andThen fun _ t => uniformTail bound t := by
  rw [uniformLoop_unfold, nextU32, andThen_assoc]
  rfl

theorem uniformLoop_atSeq (q : Sequencer) (bound : Word) (fuel : Nat) (s : State) :
    uniformLoop fuel bound (s.atSeq q) = (uniformLoop fuel bound s).mapStates (State.atSeq q) id := by
  induction fuel generalizing s with
  | zero => rfl
  | succ fuel ih =>
    have hdraw : nextU32 (s.atSeq q) = (nextU32 s).mapStates (State.atSeq q) id := by
      rw [nextU32, nextU32, stirIfNeeded_atSeq]
      exact mapStates_andThen _ _ _ fun _ t => (unseen_atSeq q).drawWord id t
    rw [uniformLoop, uniformLoop, hdraw]
    refine mapStates_andThen _ _ _ fun v t => ?_
    rw [judge, judge, ih, mapStates_ite]
    rfl

theorem tailOf_atSeq (q : Sequencer) (cmd : Instr) (s : State) :
    tailOf cmd (s.atSeq q) = (tailOf cmd s).mapStates (State.atSeq q) id := by
  cases cmd with
  | randomU32 => exact (unseen_atSeq q).u32Tail id s
  | randomFill len => exact (unseen_atSeq q).fillTail id len s
  | randomUniform bound =>
    rw [tailOf_randomUniform, tailOf_randomUniform, uniformTail, (unseen_atSeq q).drawWord id]
    refine mapStates_andThen _ _ _ fun v t => ?_
    have hbound : drawBound (t.atSeq q) = drawBound t := by
      unfold drawBound
      rfl
    rw [judge, judge, hbound, uniformLoop_atSeq, mapStates_ite]
    rfl

/-- Every end of a command sets the sequencer, so where it stood before is lost. -/
theorem finish_mapStates_atSeq (q : Sequencer) (cmd : Instr) (r : Micro Reply) :
    finish cmd (r.mapStates (State.atSeq q) id) = finish cmd r := by
  cases r <;> rfl

theorem resume_atSeq (q : Sequencer) (cmd : Instr) (live : Word) (s : State) :
    resume cmd live (s.atSeq q) = resume cmd live s := by
  rw [resume, resume, awaitEntropy_atSeq, mapStates_andThen _ _ _ fun _ t => tailOf_atSeq q cmd t,
    finish_mapStates_atSeq]

/-! ### A late answer -/

theorem unseen_queueEntropy (a : EntAnswer) : Unseen (State.queueEntropy a) where
  haveReg _ := rfl
  rekey _ := rfl
  consume m s gr := by
    rw [consume, consume, mapStates_ite]
    rfl

theorem sampleLivePid_queueEntropy (a : EntAnswer) (s : State) :
    (s.queueEntropy a).sampleLivePid = (s.sampleLivePid.1, s.sampleLivePid.2.queueEntropy a) := by
  refine Prod.ext ?_ ?_
  · rw [sampleLivePid_fst, sampleLivePid_fst]
    rfl
  · simp only [sampleLivePid_snd]
    rfl

/-- An answer that is there is taken before the one that comes behind it. -/
theorem awaitEntropy_done_queueEntropy {live : Word} {s t : State} {u : Unit} (a : EntAnswer)
    (h : awaitEntropy live s = .done u t) : awaitEntropy live (s.queueEntropy a) = .done u (t.queueEntropy a) := by
  cases hs : s.env.answers with
  | nil => simp [awaitEntropy_nil live s hs] at h
  | cons b rest =>
    have hcome : s.env.withdrawn ≤ s.env.entropy.length := by
      by_contra hlt
      rw [Env.answers, List.drop_eq_nil_of_le (by omega)] at hs
      cases hs
    have hqueued : (s.queueEntropy a).env.answers = b :: (rest ++ [a]) := by
      rw [queueEntropy_answers a hcome, hs, List.cons_append]
    cases hok : b.fail with
    | true => simp [awaitEntropy_fail live s hs hok] at h
    | false =>
      rw [awaitEntropy_ok live s hs hok] at h
      obtain ⟨_, rfl⟩ := Micro.done.inj h
      rw [awaitEntropy_ok live _ hqueued hok]
      congr 1
      unfold reseedFrom
      by_cases hmode : s.mode = .uninit
      · simp [hmode, State.queueEntropy]
      · simp [hmode, State.queueEntropy, rekey]

theorem stirIfNeeded_done_queueEntropy {n : Word} {s t : State} {u : Unit} (a : EntAnswer)
    (h : stirIfNeeded n s = .done u t) : stirIfNeeded n (s.queueEntropy a) = .done u (t.queueEntropy a) := by
  have hsample := sampleLivePid_queueEntropy a s
  cases ht : reseedTriggered n s.sampleLivePid.1 s.sampleLivePid.2 with
  | false =>
    rw [stirIfNeeded_of_not_triggered ht] at h
    obtain ⟨_, rfl⟩ := Micro.done.inj h
    rw [stirIfNeeded_of_not_triggered (by rw [hsample]; exact ht), hsample]
    rfl
  | true =>
    rw [stirIfNeeded_of_triggered ht] at h
    rw [stirIfNeeded_of_triggered (by rw [hsample]; exact ht), hsample]
    exact awaitEntropy_done_queueEntropy a h

theorem awaitEntropy_blocked_inv {live l : Word} {s t : State} (h : awaitEntropy live s = .blocked l t) :
    l = live ∧ t = s := by
  cases hs : s.env.answers with
  | nil =>
    rw [awaitEntropy_nil live s hs] at h
    obtain ⟨rfl, rfl⟩ := Micro.blocked.inj h
    exact ⟨rfl, rfl⟩
  | cons b rest =>
    cases hok : b.fail with
    | true => simp [awaitEntropy_fail live s hs hok] at h
    | false => simp [awaitEntropy_ok live s hs hok] at h

/-- With one more answer a blocked `STIR_IF_NEEDED` stands where its resumption does. -/
theorem stirIfNeeded_blocked_queueEntropy {n live : Word} {s t : State} (a : EntAnswer)
    (h : stirIfNeeded n s = .blocked live t) :
    stirIfNeeded n (s.queueEntropy a) = awaitEntropy live (t.queueEntropy a) := by
  have hsample := sampleLivePid_queueEntropy a s
  cases ht : reseedTriggered n s.sampleLivePid.1 s.sampleLivePid.2 with
  | false => simp [stirIfNeeded_of_not_triggered ht] at h
  | true =>
    rw [stirIfNeeded_of_triggered ht] at h
    obtain ⟨rfl, rfl⟩ := awaitEntropy_blocked_inv h
    rw [stirIfNeeded_of_triggered (by rw [hsample]; exact ht), hsample]
    rfl

/-- The two ways a `STIR_IF_NEEDED` and what follows it end up blocked. -/
theorem andThen_eq_blocked {α β : Type} {r : Micro α} {k : α → State → Micro β} {live : Word} {t : State}
    (h : r.andThen k = .blocked live t) :
    r = .blocked live t ∨ ∃ a s, r = .done a s ∧ k a s = .blocked live t := by
  cases r with
  | done a s => exact .inr ⟨a, s, rfl, h⟩
  | blocked l s =>
    obtain ⟨rfl, rfl⟩ := Micro.blocked.inj h
    exact .inl rfl
  | raised s => cases h
  | stopped f => cases h

/-- With one more answer a sampler that blocked in a later draw stands where its resumption does. -/
theorem uniformTail_blocked_queueEntropy {bound live : Word} {s t : State} (a : EntAnswer)
    (h : uniformTail bound s = .blocked live t) : uniformTail bound (s.queueEntropy a) =
      (awaitEntropy live (t.queueEntropy a)).andThen fun _ u => uniformTail bound u := by
  induction hk : drawBound s using Nat.strong_induction_on generalizing s with
  | _ k ih =>
    subst hk
    rw [uniformTail] at h
    obtain ⟨v, s₁, hdraw, hjudge⟩ : ∃ v s₁, drawWord s = .done v s₁ ∧
        judge bound (fun t => uniformLoop (drawBound t) bound t) v s₁ = .blocked live t := by
      by_cases hh : s.haveReg.toNat ≤ 1024
      · rw [drawWord_eq hh] at h
        exact ⟨_, _, drawWord_eq hh, h⟩
      · rw [drawWord_of_gt (Nat.lt_of_not_le hh)] at h
        cases h
    rw [judge] at hjudge
    split at hjudge
    · cases hjudge
    next hreject =>
      have hdrawQueued : drawWord (s.queueEntropy a) = .done v (s₁.queueEntropy a) := by
        rw [(unseen_queueEntropy a).drawWord (State.queueEntropy a), hdraw]
        rfl
      have hagain : uniformTail bound (s.queueEntropy a) =
          (stirIfNeeded 4 (s₁.queueEntropy a)).andThen fun _ u => uniformTail bound u := by
        rw [uniformTail, hdrawQueued, andThen_done, judge, if_neg hreject, uniformLoop_eq_stirIfNeeded_andThen]
      rw [uniformLoop_eq_stirIfNeeded_andThen] at hjudge
      rcases andThen_eq_blocked hjudge with hstir | ⟨u, s₂, hstir, htail⟩
      · rw [hagain, stirIfNeeded_blocked_queueEntropy a hstir]
      · have hless : drawBound s₂ < drawBound s := by
          obtain ⟨_, hs₁⟩ := drawWord_eq_done hdraw
          have hsame : drawBound s₁ = drawBound s := by
            unfold drawBound
            rw [hs₁, consumed_env, readyToDraw_env, consumed_count, readyToDraw_count]
          exact hsame ▸ stirIfNeeded_drawBound hstir
        rw [hagain, stirIfNeeded_done_queueEntropy a hstir, andThen_done]
        exact ih _ hless htail rfl

theorem tailOf_blocked_queueEntropy {cmd : Instr} {live : Word} {s t : State} (a : EntAnswer)
    (h : tailOf cmd s = .blocked live t) : tailOf cmd (s.queueEntropy a) =
      (awaitEntropy live (t.queueEntropy a)).andThen fun _ u => tailOf cmd u := by
  cases cmd with
  | randomU32 =>
    rcases u32Tail_done_or_stopped s with ⟨_, _, hdone, _⟩ | ⟨_, hstop⟩
    · exact nomatch hdone.symm.trans h
    · exact nomatch hstop.symm.trans h
  | randomFill len =>
    rcases fillTail_done_or_stopped len s with ⟨_, _, hdone, _⟩ | ⟨_, hstop⟩
    · exact nomatch hdone.symm.trans h
    · exact nomatch hstop.symm.trans h
  | randomUniform bound => exact uniformTail_blocked_queueEntropy a h

/-- Where a command's tail raises, the exception's answer stands on the ports. -/
theorem tailOf_raised_seq {cmd : Instr} {n : Word} {s t : State} (hn : firstRequest cmd = some n)
    (hs : s.mode ≠ .halted) (h : tailOf cmd s = .raised t) : t.seq = .responding [] ⟨.errEntropy, 0⟩ := by
  by_cases hh : s.haveReg.toNat ≤ 1024
  · have hruns := tailOf_runsFrom hn ⟨hs, hh⟩
    rw [h] at hruns
    exact ((meets_raised t).mp hruns).seq
  · have hgt : 1024 < s.haveReg.toNat := Nat.lt_of_not_le hh
    cases cmd with
    | randomU32 =>
      rw [tailOf_randomU32, u32Tail, drawWord_of_gt hgt] at h
      cases h
    | randomFill len =>
      rcases fillTail_done_or_stopped len s with ⟨_, _, hdone, _⟩ | ⟨_, hstop⟩
      · exact nomatch hdone.symm.trans h
      · exact nomatch hstop.symm.trans h
    | randomUniform bound =>
      rw [tailOf_randomUniform, uniformTail, drawWord_of_gt hgt] at h
      cases h

/-- A command ends its step waiting only by a blocked gather. -/
theorem blocked_of_waiting {i j : Instr} {n live : Word} {s t : State} (hn : firstRequest i = some n)
    (hs : s.mode ≠ .halted) (hexec : exec i s = .next t) (hq : t.seq = .waiting j live) :
    ∃ u, ((stirIfNeeded n s).andThen fun _ v => tailOf i v) = .blocked live u ∧ j = i ∧
      t = u.atSeq (.waiting i live) := by
  rw [exec_eq_stirIfNeeded_andThen_tailOf hn hs] at hexec
  cases hrun : (stirIfNeeded n s).andThen fun _ v => tailOf i v with
  | done a u =>
    rw [hrun] at hexec
    obtain rfl := Host.Outcome.next.inj hexec
    cases hq
  | blocked l u =>
    rw [hrun] at hexec
    obtain rfl := Host.Outcome.next.inj hexec
    obtain ⟨rfl, rfl⟩ := Sequencer.waiting.inj hq
    exact ⟨u, rfl, rfl, rfl⟩
  | raised u =>
    rw [hrun] at hexec
    obtain rfl : u = t := Host.Outcome.next.inj hexec
    have hruns := stirIfNeeded_runsFrom n hs
    have hanswer : u.seq = .responding [] ⟨.errEntropy, 0⟩ := by
      cases hstir : stirIfNeeded n s with
      | done _ v =>
        rw [hstir, andThen_done] at hrun
        exact tailOf_raised_seq hn (by simp [stirIfNeeded_done_mode hs hstir]) hrun
      | blocked l v => simp [hstir] at hrun
      | raised v =>
        rw [hstir] at hrun hruns
        obtain rfl := Micro.raised.inj hrun
        exact ((meets_raised v).mp hruns).seq
      | stopped f => simp [hstir] at hrun
    exact nomatch hanswer.symm.trans hq
  | stopped f =>
    rw [hrun] at hexec
    cases hexec

/-- Settles O42: from the blocked gather on, the run with one more answer is the resumption. -/
theorem lateAnswerSameRun : Obligations.LateAnswerSameRun := by
  unfold Obligations.LateAnswerSameRun
  intro s t i j live a hexec hq
  by_cases hs : s.mode = .halted
  · obtain rfl := Host.Outcome.next.inj ((exec_halted hs).symm.trans hexec)
    cases hq
  cases hn : firstRequest i with
  | none =>
    obtain ⟨bound, rfl, hb⟩ := firstRequest_eq_none hn
    obtain rfl := Host.Outcome.next.inj ((exec_randomUniform_of_lt_two hs hb).symm.trans hexec)
    cases hq
  | some n =>
    obtain ⟨u, hblocked, rfl, rfl⟩ := blocked_of_waiting hn hs hexec hq
    refine ⟨rfl, ?_⟩
    have hrun : ((stirIfNeeded n (s.queueEntropy a)).andThen fun _ v => tailOf j v) =
        (awaitEntropy live (u.queueEntropy a)).andThen fun _ v => tailOf j v := by
      rcases andThen_eq_blocked hblocked with hstir | ⟨_, v, hstir, htail⟩
      · rw [stirIfNeeded_blocked_queueEntropy a hstir]
      · rw [stirIfNeeded_done_queueEntropy a hstir, andThen_done, tailOf_blocked_queueEntropy a htail]
    calc resume j live ((u.atSeq (.waiting j live)).queueEntropy a)
        = resume j live (u.queueEntropy a) := resume_atSeq (.waiting j live) j live (u.queueEntropy a)
      _ = exec j (s.queueEntropy a) := by
        rw [exec_eq_stirIfNeeded_andThen_tailOf (s := s.queueEntropy a) hn hs, hrun, resume]

end Sys2Proof.Machine
end

