-- ==== Sys2Proof/Proofs/Noninterference.lean ====
section
/-! What a command's run does not depend on: the unread bytes once a reseed is due (70_reset_and_hazards.md R118), and
the residue of an uninitialised engine (10_state.md R27). First, what it takes from the oracles (42_public_api.md R81,
R82). -/

namespace Sys2Proof.Machine

/-! ### Samples and requests -/

theorem Settled.not_triggering {n : Word} {s : State} (h : Settled n s) : ¬ Triggering n s := by
  obtain ⟨hmode, hcount, hpid⟩ := h
  rintro (huninit | ⟨_, hspent | hforked⟩)
  · simp [hmode] at huninit
  · exact BitVec.not_le.mpr hcount hspent
  · exact hforked hpid

/-- After its `STIR_IF_NEEDED` a command other than `RANDOM_UNIFORM` calls no oracle. -/
theorem exec_env_of_stir {i : Instr} {n : Word} {s s₁ t : State} (hi : ∀ bound, i ≠ .randomUniform bound)
    (hn : firstRequest i = some n) (hs : s.mode ≠ .halted) (hstir : stirIfNeeded n s = .done () s₁)
    (hexec : exec i s = .next t) : t.env = s₁.env := by
  have htail : (∃ a u, tailOf i s₁ = .done a u ∧ u.env = s₁.env) ∨ ∃ f, tailOf i s₁ = .stopped f := by
    cases i with
    | randomU32 => exact u32Tail_done_or_stopped s₁
    | randomFill len => exact fillTail_done_or_stopped len s₁
    | randomUniform bound => exact absurd rfl (hi bound)
  rw [exec_eq_stirIfNeeded_andThen_tailOf hn hs, hstir, andThen_done] at hexec
  rcases htail with ⟨a, u, hdone, henv⟩ | ⟨f, hstop⟩
  · rw [hdone] at hexec
    obtain rfl := Host.Outcome.next.inj hexec
    exact henv
  · rw [hstop] at hexec
    cases hexec

/-- A triggered command has made its one request, however the gather ends. -/
theorem exec_counts_of_triggering {i : Instr} {n : Word} {s t : State} (hi : ∀ bound, i ≠ .randomUniform bound)
    (hn : firstRequest i = some n) (h : Triggering n s) (hexec : exec i s = .next t) :
    t.env.sampled = s.env.sampled + 1 ∧ t.env.requests = s.env.requests + 1 := by
  cases ha : s.env.answers with
  | nil =>
    obtain rfl := Host.Outcome.next.inj ((exec_of_unanswered_gather hn h ha).symm.trans hexec)
    exact ⟨rfl, rfl⟩
  | cons a rest =>
    cases hok : a.fail with
    | true =>
      obtain ⟨_, _, hfailed⟩ := entropyFailureHalts s n a rest h ha hok
      obtain rfl := Host.Outcome.next.inj ((hfailed i hn).symm.trans hexec)
      exact ⟨rfl, rfl⟩
    | false =>
      rw [exec_env_of_stir hi hn h.mode_ne_halted (stirIfNeeded_of_answered_gather h ha hok) hexec, reseeded_env]
      exact ⟨rfl, rfl⟩

/-- Settles O57. -/
theorem oneSamplePerCommand : Obligations.OneSamplePerCommand := by
  unfold Obligations.OneSamplePerCommand
  intro s t i n hi hn hs hexec
  rcases settled_or_triggering n hs with hsettled | htrigger
  · rw [exec_env_of_stir hi hn hs (stirIfNeeded_eq_charged hsettled) hexec]
    exact ⟨rfl, fun _ => rfl, fun htrigger => absurd htrigger hsettled.not_triggering⟩
  · obtain ⟨hsampled, hrequests⟩ := exec_counts_of_triggering hi hn htrigger hexec
    exact ⟨hsampled, fun hsettled => absurd htrigger hsettled.not_triggering, fun _ => hrequests⟩

/-! ### The old buffer after a reseed -/

/-- With no unread byte a command that emits bytes first refills, so the old buffer is overwritten unread. -/
theorem tailOf_of_empty_congr {i : Instr} {s : State} {b : Memory} (hs : s.buf.wf) (hb : b.wf)
    (hempty : s.haveReg = 0) (hi : i ≠ .randomFill 0) : tailOf i { s with buf := b } = tailOf i s := by
  have hzero : s.haveReg.toNat = 0 := (haveReg_eq_zero_iff s).mp hempty
  have hrekey : rekey none { s with buf := b } = rekey none s := rekey_congr hb hs rfl rfl rfl rfl rfl rfl
  have hdraw : drawWord { s with buf := b } = drawWord s := by
    have hlt : s.haveReg.toNat < 4 := by omega
    rw [drawWord_of_refill hlt, drawWord_of_refill (s := { s with buf := b }) hlt, hrekey]
  cases i with
  | randomU32 => rw [tailOf_randomU32, tailOf_randomU32, u32Tail, u32Tail, hdraw]
  | randomFill len =>
    have hpos : 0 < len.toNat := Nat.pos_of_ne_zero fun h => hi (by rw [BitVec.eq_of_toNat_eq (y := 0) h])
    rw [tailOf_randomFill, tailOf_randomFill, fillTail, fillTail, fillLoop_of_empty hpos hzero,
      fillLoop_of_empty (s := { s with buf := b }) hpos hzero, hrekey]
  | randomUniform bound => rw [tailOf_randomUniform, tailOf_randomUniform, uniformTail, uniformTail, hdraw]

/-- After an answered gather another old buffer and `have` are seen at most in the buffer. -/
theorem reseeded_of_other_buffer {s : State} {b : Memory} (h : BitVec 11) (a : EntAnswer) (rest : List EntAnswer)
    (hs : s.buf.wf) (hb : b.wf) : ∃ b' : Memory, b'.wf ∧
      State.reseeded a rest { s with buf := b, haveReg := h } = { s.reseeded a rest with buf := b' } := by
  by_cases hmode : s.mode = .uninit
  · refine ⟨b, hb, ?_⟩
    simp [State.reseeded, reseedFrom, hmode, State.nextPid]
  · refine ⟨(s.reseeded a rest).buf, reseeded_wf a rest hs, ?_⟩
    have hrekey : rekey (some a.seed) { s with buf := b, haveReg := h, env := s.env.afterGather rest } =
        rekey (some a.seed) { s with env := s.env.afterGather rest } := rekey_congr hb hs rfl rfl rfl rfl rfl rfl
    simp [State.reseeded, reseedFrom, hmode, State.nextPid, hrekey]

theorem exec_of_answered_gather {s : State} {i : Instr} {n : Word} {a : EntAnswer} {rest : List EntAnswer}
    (hn : firstRequest i = some n) (h : Triggering n s) (ha : s.env.answers = a :: rest) (hok : a.fail = false) :
    exec i s = finish i (tailOf i (s.reseeded a rest)) := by
  rw [exec_eq_stirIfNeeded_andThen_tailOf hn h.mode_ne_halted, stirIfNeeded_of_answered_gather h ha hok, andThen_done]

/-- Settles O58: the reseed leaves no unread byte, and what it leaves of the buffer is refilled. -/
theorem reseedIgnoresUnreadBytes : Obligations.ReseedIgnoresUnreadBytes := by
  unfold Obligations.ReseedIgnoresUnreadBytes
  intro s b h a rest i n hs hb hn hi htrigger ha hok
  obtain ⟨b', hb', hreseeded⟩ := reseeded_of_other_buffer h a rest hs hb
  rw [exec_of_answered_gather hn htrigger ha hok,
    exec_of_answered_gather (s := { s with buf := b, haveReg := h }) hn htrigger ha hok, hreseeded,
    tailOf_of_empty_congr (reseeded_wf a rest hs) hb' (reseeded_haveReg a rest s) hi]

/-! ### The residue of an uninitialised engine -/

/-- From UNINIT a reseed reads the environment alone: two reseeded engines differ at most in the old buffer and in where
the sequencer stood. -/
theorem reseeded_of_uninit {s s' : State} (a : EntAnswer) (rest : List EntAnswer) (hs : s.mode = .uninit)
    (hs' : s'.mode = .uninit) (henv : s.env = s'.env) :
    s.reseeded a rest = State.atSeq s.seq { s'.reseeded a rest with buf := s.buf } := by
  have hx : initCipher a.seed s.x = initCipher a.seed s'.x := initCipher_congr _ _ _
  simp [State.reseeded, reseedFrom, hs, hs', State.nextPid, State.atSeq, henv, hx]

/-- With an answered gather even the whole next state is the same, but for a fill that reads no byte. -/
theorem exec_congr_of_uninit {s s' : State} {i : Instr} {n : Word} {a : EntAnswer} {rest : List EntAnswer}
    (hn : firstRequest i = some n) (hs : s.mode = .uninit) (hs' : s'.mode = .uninit) (henv : s.env = s'.env)
    (hw : s.buf.wf) (hw' : s'.buf.wf) (ha : s'.env.answers = a :: rest) (hok : a.fail = false)
    (hi : i ≠ .randomFill 0) : exec i s = exec i s' := by
  rw [exec_of_answered_gather hn (.inl hs) (henv ▸ ha) hok, exec_of_answered_gather hn (.inl hs') ha hok,
    reseeded_of_uninit a rest hs hs' henv, tailOf_atSeq, finish_mapStates_atSeq,
    tailOf_of_empty_congr (reseeded_wf a rest hw') hw (reseeded_haveReg a rest s') hi]

theorem exec_randomFill_zero_of_answered_gather {s : State} {a : EntAnswer} {rest : List EntAnswer}
    (h : Triggering 0 s) (ha : s.env.answers = a :: rest) (hok : a.fail = false) :
    exec (.randomFill 0) s = .next ((s.reseeded a rest).respond .ok 0 []) :=
  exec_randomFill_of_fill h.mode_ne_halted (stirIfNeeded_of_answered_gather h ha hok)
    (fillTail_of_done (fillLoop_zero 1 _))

theorem runnable_reseeded (a : EntAnswer) (rest : List EntAnswer) (s : State) : Runnable (s.reseeded a rest) :=
  ⟨by simp, by rw [reseeded_haveReg]; decide⟩

/-- Settles O59: by how the gather ends; the empty fill answers without reading anything. -/
theorem uninitResidueUnobservable : Obligations.UninitResidueUnobservable := by
  unfold Obligations.UninitResidueUnobservable
  intro s s' i hs hs' henv hw hw'
  have hne : s.mode ≠ .halted := by simp [hs]
  have hne' : s'.mode ≠ .halted := by simp [hs']
  cases hn : firstRequest i with
  | none =>
    obtain ⟨bound, rfl, hb⟩ := firstRequest_eq_none hn
    exact ⟨_, _, exec_randomUniform_of_lt_two hne hb, exec_randomUniform_of_lt_two hne' hb, rfl, hs.trans hs'.symm,
      henv⟩
  | some n =>
    have htrigger : Triggering n s := .inl hs
    have htrigger' : Triggering n s' := .inl hs'
    cases ha : s'.env.answers with
    | nil =>
      refine ⟨_, _, exec_of_unanswered_gather hn htrigger (henv ▸ ha), exec_of_unanswered_gather hn htrigger' ha, ?_,
        hs.trans hs'.symm, by rw [henv]⟩
      simp [State.nextPid, henv]
    | cons a rest =>
      cases hok : a.fail with
      | true =>
        obtain ⟨_, _, hfailed⟩ := entropyFailureHalts s n a rest htrigger (henv ▸ ha) hok
        obtain ⟨_, _, hfailed'⟩ := entropyFailureHalts s' n a rest htrigger' ha hok
        exact ⟨_, _, hfailed i hn, hfailed' i hn, rfl, rfl, by rw [henv]⟩
      | false =>
        by_cases hi : i = .randomFill 0
        · subst hi
          exact ⟨_, _, exec_randomFill_zero_of_answered_gather (.inl hs) (henv ▸ ha) hok,
            exec_randomFill_zero_of_answered_gather (.inl hs') ha hok, by simp only [respond_seq],
            by simp only [respond_mode, reseeded_mode], by simp only [respond_env, reseeded_env, henv]⟩
        · have hsame := exec_congr_of_uninit hn hs hs' henv hw hw' ha hok hi
          have hruns := tailOf_runsFrom hn (runnable_reseeded a rest s')
          obtain ⟨t, hnext, _⟩ := (finish_ends hn hruns).effect (runnable_reseeded a rest s').1
          rw [← exec_of_answered_gather hn htrigger' ha hok] at hnext
          exact ⟨t, t, hsame.trans hnext, hnext, rfl, rfl, rfl⟩

end Sys2Proof.Machine
end
